-- ==== Sys2Proof/Word.lean ====
section
/-! DEFINITION. The words of the block: every value is unsigned (00_scope.md R7, R16). -/

namespace Sys2Proof

/-- `u8`: the unit of transfer (00_scope.md R5, `DATA_BITS`). -/
abbrev Byte := BitVec 8

/-- `u15`: an address of the chip array (00_scope.md R5, `ADDR_BITS`). -/
abbrev ChipAddr := BitVec 15

/-- `u16`: an address operand (30_encoding.md R82), a frame (R80), the stages and the latch of the chain. -/
abbrev Half := BitVec 16

/-- A 32-bit command word (30_encoding.md R90). -/
abbrev Word := BitVec 32

/-- The level of a line: `false` is 0 (low), `true` is 1 (high) (00_scope.md R7). -/
abbrev Level := Bool

end Sys2Proof
end

