-- ==== Sys2Proof/Config.lean ====
section
/-! DEFINITION. What is fixed for one machine: the pin configuration (10_state.md R20) and the parameters the source leaves
open (00_scope.md R6), as plain data that State carries so that a claim can be made for the values it names or for all of
them; and the free values (`draw()`, 00_scope.md R8), which nothing in Lean can evaluate. -/

namespace Sys2Proof

/-- The six logical pin identifiers (10_state.md R20); `PinId` is the natural numbers (00_scope.md R6). -/
structure PinConfig where
  sd : Nat
  sc : Nat
  sl : Nat
  dlo : Nat
  dhi : Nat
  we : Nat
  deriving DecidableEq, Repr

/-- `MODE` (00_scope.md R6): the design as built, or the hardened reimplementation of the source's §7. -/
inductive Mode where
  | base
  | hardened
  deriving DecidableEq, Repr

/-- `IRQ_EXIT` (00_scope.md R6, 42_write_pulse.md R154). -/
inductive IrqExit where
  | enable
  | restore
  deriving DecidableEq, Repr

/-- `INIT_CTRL_LEVEL` (00_scope.md R6): the level of each serial line after construction. -/
structure CtrlLevels where
  sd : Level
  sc : Level
  sl : Level
  deriving DecidableEq, Repr

/-- The timing parameters (00_scope.md R6) in one unit of time; no step reads them. They are used only by the named
assumption `PULSE_OK` (42_write_pulse.md R153). -/
structure Timing where
  /-- `T_CYCLE`. -/
  tCycle : Nat
  /-- The fixed overhead of the two pin writes of the low phase (42_write_pulse.md R153; the source names no symbol). -/
  tPinWrites : Nat
  /-- `T_WP_MIN`. -/
  tWpMin : Nat
  /-- `T_WP_MAX`; `none` is ∞. -/
  tWpMax : Option Nat
  /-- `T_POLL`. -/
  tPoll : Nat
  deriving DecidableEq, Repr

/-- The parameters of 00_scope.md R6 and the configuration argument of INIT (70_reset_and_hazards.md R250). -/
structure Params where
  mode : Mode
  /-- `POLL_LIMIT`, at least 1; read in HARDENED only. -/
  pollLimit : Nat
  irqExit : IrqExit
  initCtrlLevel : CtrlLevels
  /-- `IE0`: the platform interrupt-enable flag at launch. -/
  ie0 : Bool
  /-- `N_WE_NOP`. -/
  nWeNop : Nat
  /-- The configuration INIT is given. -/
  pins : PinConfig
  timing : Timing
  deriving DecidableEq, Repr

/-- The source's §8 scenario pins, the configuration of the start state S0 (95_test_vectors.md §0). -/
def Config.scenarioPins : PinConfig := { sd := 2, sc := 3, sl := 4, dlo := 5, dhi := 12, we := 13 }

/-- The parameters State.reset carries: the spec's defaults for MODE, IRQ_EXIT and INIT_CTRL_LEVEL, the start state S0's
IE0 and pins, and named values for the OPEN ones. DESIGN CHOICE, unsafe (notes/assumptions/4.md, 9.md). -/
def Config.defaultParams : Params :=
  { mode := .base
    pollLimit := 1
    irqExit := .enable
    initCtrlLevel := { sd := false, sc := false, sl := false }
    ie0 := true
    nWeNop := 0
    pins := Config.scenarioPins
    timing := { tCycle := 0, tPinWrites := 0, tWpMin := 0, tWpMax := none, tPoll := 0 } }

/-- `draw()` of a stated width (00_scope.md R8): the `n`-th free value of a run. No body: a statement holds for every
value of it. Safe (notes/assumptions/3.md). -/
opaque Config.freeValue (w : Nat) (n : Nat) : BitVec w

/-- Whether the chip completes its write cycle before the next block step, where the schedule in State does not say
(20_memory.md R57: after any number of block steps, or never). No body. Safe (notes/assumptions/3.md). -/
opaque Config.chipChoice (n : Nat) : Bool

end Sys2Proof
end

