-- ==== Sys2Proof/Syntax.lean ====
section
/-! DEFINITION. The host commands: one constructor for each row of the opcode table (00_scope.md R11, 30_encoding.md R91).
Every operand has exactly the width the spec gives its field, so every term is a command the encoding can spell. -/

namespace Sys2Proof

/-- The eleven commands. `a` is the 16-bit address operand, `d` the data byte, `oe` and `e` the flag bit. -/
inductive Instr where
  /-- INIT: construction with the model's configuration argument (70_reset_and_hazards.md R250). -/
  | init
  /-- SETADDR a, oe (40_address_serializer.md R100). -/
  | setaddr (a : Half) (oe : Bool)
  /-- BUSIN (41_data_bus.md R120). -/
  | busin
  /-- BUSOUT (41_data_bus.md R121). -/
  | busout
  /-- RDBYTE (41_data_bus.md R125). -/
  | rdbyte
  /-- WRBYTE d (41_data_bus.md R128). -/
  | wrbyte (d : Byte)
  /-- PULSEWE (42_write_pulse.md R150). -/
  | pulsewe
  /-- POLL a, e (43_completion_poller.md R170). -/
  | poll (a : Half) (e : Bool)
  /-- READ a (44_device_ops.md R190). -/
  | read (a : Half)
  /-- WRITE a, d (44_device_ops.md R193). -/
  | write (a : Half) (d : Byte)
  /-- UPDATE a, d (44_device_ops.md R196). -/
  | update (a : Half) (d : Byte)
  deriving DecidableEq, Repr

end Sys2Proof
end

