-- ==== Sys2Proof/WellFormed.lean ====
section
/-! DEFINITION. The checks on what the machine is given: pin configurations (10_state.md R22) and parameters (00_scope.md
R6). An `Instr` needs no check of its own: each field has the width of its bits, so every term is well formed. Command words
are checked by the decoder (`Word.wellFormed`, Decode.lean), the address operand's range by `addrInRange`
(Machine/Operands.lean). -/

namespace Sys2Proof

/-- Data line `i` is physical pin `DLO + i` (10_state.md R21). -/
def PinConfig.dataPin (c : PinConfig) (i : Fin 8) : Nat := c.dlo + i.val

/-- The twelve physical pins a configuration names (10_state.md R22). -/
def PinConfig.physicalPins (c : PinConfig) : List Nat :=
  [c.sd, c.sc, c.sl, c.we] ++ (List.finRange 8).map c.dataPin

/-- The data lines span exactly eight pins (10_state.md R21, R22). -/
def PinConfig.spanOk (c : PinConfig) : Bool := c.dhi == c.dlo + 7

/-- A valid configuration (10_state.md R22). -/
def PinConfig.valid (c : PinConfig) : Bool := c.spanOk && decide c.physicalPins.Nodup

/-- `POLL_LIMIT` is a natural number of at least 1 (00_scope.md R6). -/
def Params.wellFormed (p : Params) : Bool := 1 ≤ p.pollLimit

end Sys2Proof
end

