-- ==== Sys2Proof/Decode.lean ====
section
/-! DEFINITION. The command decoder, the encoder and the opcode table (30_encoding.md R90 to R93). -/

namespace Sys2Proof

/-- The fields of a command word (30_encoding.md R90). -/
def Word.op (w : Word) : BitVec 4 := w.extractLsb' 28 4
/-- Bits 27..25, which must be zero. -/
def Word.zField (w : Word) : BitVec 3 := w.extractLsb' 25 3
/-- Bit 24, the flag. -/
def Word.flag (w : Word) : BitVec 1 := w.extractLsb' 24 1
/-- Bits 23..8, the address operand. -/
def Word.addr (w : Word) : Half := w.extractLsb' 8 16
/-- Bits 7..0, the data operand. -/
def Word.data (w : Word) : Byte := w.extractLsb' 0 8

/-- Operation codes 0xB to 0xF are reserved (30_encoding.md R92). -/
def Word.opDefined (w : Word) : Bool := w.op.toNat < 0xB

/-- Commands that use the flag bit: SETADDR and POLL (30_encoding.md R91). -/
def usesFlag (op : BitVec 4) : Bool := op == 0x1#4 || op == 0x7#4
/-- Commands that use the address field: SETADDR, POLL, READ, WRITE, UPDATE. -/
def usesAddr (op : BitVec 4) : Bool := op == 0x1#4 || op == 0x7#4 || op == 0x8#4 || op == 0x9#4 || op == 0xA#4
/-- Commands that use the data field: WRBYTE, WRITE, UPDATE. -/
def usesData (op : BitVec 4) : Bool := op == 0x5#4 || op == 0x9#4 || op == 0xA#4

/-- The `z` field and every field the command does not use are zero (30_encoding.md R91, R92). -/
def Word.unusedZero (w : Word) : Bool :=
  w.zField == 0#3 && (usesFlag w.op || w.flag == 0#1) && (usesAddr w.op || w.addr == 0#16) &&
    (usesData w.op || w.data == 0#8)

/-- The words that spell a command (30_encoding.md R92). -/
def Word.wellFormed (w : Word) : Bool := w.opDefined && w.unusedZero

/-- Why a word spells no command (30_encoding.md R92); both are the refusal `IllegalCommand` of 60_exceptions.md R224. -/
inductive IllegalWord where
  /-- Operation code 0xB to 0xF. -/
  | reservedOp (w : Word)
  /-- The `z` field or an unused field is nonzero. -/
  | unusedNonzero (w : Word)
  deriving DecidableEq, Repr

/-- The operation code of a command (30_encoding.md R91). -/
def Instr.opcode : Instr → BitVec 4
  | .init => 0x0#4
  | .setaddr _ _ => 0x1#4
  | .busin => 0x2#4
  | .busout => 0x3#4
  | .rdbyte => 0x4#4
  | .wrbyte _ => 0x5#4
  | .pulsewe => 0x6#4
  | .poll _ _ => 0x7#4
  | .read _ => 0x8#4
  | .write _ _ => 0x9#4
  | .update _ _ => 0xA#4

/-- The command that a word with the given operation code and fields spells (30_encoding.md R91, R93). -/
def instrOf (op : BitVec 4) (f : BitVec 1) (a : Half) (d : Byte) : Option Instr :=
  match op.toNat with
  | 0x0 => some .init
  | 0x1 => some (.setaddr a (f == 1#1))
  | 0x2 => some .busin
  | 0x3 => some .busout
  | 0x4 => some .rdbyte
  | 0x5 => some (.wrbyte d)
  | 0x6 => some .pulsewe
  | 0x7 => some (.poll a (f == 1#1))
  | 0x8 => some (.read a)
  | 0x9 => some (.write a d)
  | 0xA => some (.update a d)
  | _ => none

/-- The decoder, total on every word (30_encoding.md R92). -/
def decode (w : Word) : Except IllegalWord Instr :=
  match instrOf w.op w.flag w.addr w.data with
  | none => .error (.reservedOp w)
  | some i => if w.unusedZero then .ok i else .error (.unusedNonzero w)

/-- A word from its fields: op, z = 0, f, addr, data (30_encoding.md R90). -/
def packWord (op : BitVec 4) (f : Bool) (a : Half) (d : Byte) : Word :=
  op ++ (0#3 ++ (BitVec.ofBool f ++ (a ++ d)))

/-- The word of a command; fields it does not use are zero (30_encoding.md R90, R91). -/
def encode : Instr → Word
  | .init => packWord 0x0#4 false 0#16 0#8
  | .setaddr a oe => packWord 0x1#4 oe a 0#8
  | .busin => packWord 0x2#4 false 0#16 0#8
  | .busout => packWord 0x3#4 false 0#16 0#8
  | .rdbyte => packWord 0x4#4 false 0#16 0#8
  | .wrbyte d => packWord 0x5#4 false 0#16 d
  | .pulsewe => packWord 0x6#4 false 0#16 0#8
  | .poll a e => packWord 0x7#4 e a 0#8
  | .read a => packWord 0x8#4 false a 0#8
  | .write a d => packWord 0x9#4 false a d
  | .update a d => packWord 0xA#4 false a d

/-- A row of the opcode table: a word selects it iff `w & mask = match` (30_encoding.md R91). -/
structure OpRow where
  op : BitVec 4
  pattern : Word
  mask : Word
  deriving DecidableEq, Repr

/-- Whether a word selects a row (30_encoding.md R91). -/
def OpRow.selects (r : OpRow) (w : Word) : Bool := w &&& r.mask == r.pattern

/-- The table of 30_encoding.md R91, as printed there. -/
def opTable : List OpRow :=
  [ ⟨0x0#4, 0x00000000#32, 0xFFFFFFFF#32⟩,
    ⟨0x1#4, 0x10000000#32, 0xFE0000FF#32⟩,
    ⟨0x2#4, 0x20000000#32, 0xFFFFFFFF#32⟩,
    ⟨0x3#4, 0x30000000#32, 0xFFFFFFFF#32⟩,
    ⟨0x4#4, 0x40000000#32, 0xFFFFFFFF#32⟩,
    ⟨0x5#4, 0x50000000#32, 0xFFFFFF00#32⟩,
    ⟨0x6#4, 0x60000000#32, 0xFFFFFFFF#32⟩,
    ⟨0x7#4, 0x70000000#32, 0xFE0000FF#32⟩,
    ⟨0x8#4, 0x80000000#32, 0xFF0000FF#32⟩,
    ⟨0x9#4, 0x90000000#32, 0xFF000000#32⟩,
    ⟨0xA#4, 0xA0000000#32, 0xFF000000#32⟩ ]

/-- The command in a word whose low `nbits` bits are those of `w`, all higher bits zero. -/
def decodeTableWord (nbits w : Nat) : Option Instr :=
  match decode (BitVec.ofNat 32 (w % 2 ^ nbits)) with
  | .ok i => some i
  | .error _ => none

end Sys2Proof
end

