-- ==== Sys2Proof/Machine/State.lean ====
section
/-! DEFINITION. The machine's state as plain data (10_state.md, 20_memory.md), the faults and refusals, and the launch
state (70_reset_and_hazards.md R253). -/

namespace Sys2Proof.Machine

/-- The mode of a pin: Input and Output are the source's; `unknown` is the value before anything set it (10_state.md R27,
R40). -/
inductive PinMode where
  | unknown
  | input
  | output
  deriving DecidableEq, Repr

/-- The four control pins (10_state.md R25). -/
inductive Pin where
  | sd
  | sc
  | sl
  | we
  deriving DecidableEq, Repr

/-- `s.lvl`: the level each control pin drives (10_state.md R26). -/
structure Levels where
  sd : Level
  sc : Level
  sl : Level
  we : Level
  deriving DecidableEq, Repr

/-- The modes of the control pins (10_state.md R25, R40). -/
structure CtrlModes where
  sd : PinMode
  sc : PinMode
  sl : PinMode
  we : PinMode
  deriving DecidableEq, Repr

/-- `s.chip`: the chip's write-cycle state (20_memory.md R53). -/
inductive Chip where
  | idle
  | writing (addr : ChipAddr) (data : Byte)
  deriving DecidableEq, Repr

/-- `s.pollCtx` of a poll in flight: its address, its expected bit and the reads done (43_completion_poller.md R171). -/
structure PollCtx where
  addr : Half
  expect : Bool
  reads : Nat
  deriving DecidableEq, Repr

/-- A pin-level event (00_scope.md R9, 10_state.md R33). -/
inductive Event where
  /-- `(SD, l)`, `(SC, l)`, `(SL, l)`, `(WE, l)`. -/
  | pin (p : Pin) (l : Level)
  /-- `(D i, l)`. -/
  | line (i : Fin 8) (l : Level)
  /-- `(S i)`. -/
  | sample (i : Fin 8)
  /-- `(MODE m)`. -/
  | busMode (m : PinMode)
  /-- `(IRQ b)`. -/
  | irq (b : Bool)
  /-- `(DELAY_WE n)`. -/
  | delayWe (n : Nat)
  /-- `(DELAY_POLL)`. -/
  | delayPoll
  /-- `(INIT)`. -/
  | constructed
  deriving DecidableEq, Repr

/-- The faults of 60_exceptions.md R220, each with the information recorded. A meaning RECORDS its fault in `State.fault`
and answers a next state (fault entry, R222); `step` stops with the recorded fault afterwards, since no command runs after
it (R225). All are safe: the spec gives the machine no behaviour beyond them (notes/assumptions/6.md). -/
inductive Fault where
  /-- Code 1, raised by INIT with an invalid configuration, both modes. Safe. -/
  | configurationError (cfg : PinConfig)
  /-- Code 2, raised in HARDENED by SETADDR, POLL, READ, WRITE and UPDATE with an address above 0x7FFF. Safe. -/
  | addressOutOfRange (a : Half)
  /-- Code 3, raised in HARDENED by POLL, WRITE and UPDATE after `POLL_LIMIT` reads with no match. Safe. -/
  | writeTimeout (a : Half) (reads : Nat)
  /-- Code 16, raised by every command but INIT before construction; records the operation code. Safe. -/
  | notInitialized (op : BitVec 4)
  /-- Code 17, raised by INIT after construction. Safe. -/
  | alreadyInitialized
  /-- Code 18, raised by RDBYTE out of input mode and WRBYTE out of output mode. Safe. -/
  | busDirection (op : BitVec 4) (dir : PinMode)
  /-- Code 19, raised by ContentionCheck (R228) in SETADDR and BUSOUT, and in a WRITE that begins with SC high
  (notes/assumptions/8.md); records `s.q` and `s.busDir`. Safe. -/
  | busContention (q : Half) (dir : PinMode)
  /-- Code 20, raised by PULSEWE with the bus not driven or /OE on; records `s.busDir` and `s.q[15]`. Safe. -/
  | pulsePrecondition (dir : PinMode) (oeN : Level)
  /-- Code 21, raised by a write pulse (PULSEWE, WRITE, UPDATE) while the chip is writing; records `s.chip`. Safe. -/
  | chipBusy (chip : Chip)
  deriving DecidableEq, Repr

/-- Why a command has no meaning. -/
inductive Refusal where
  /-- An arm of `exec` that gives its instruction no meaning yet. Safe. No arm does. -/
  | notModelled (mnemonic : String)
  /-- `IllegalCommand(w)`: `step` at a word that spells no command records it in `State.refused` (60_exceptions.md R224),
  and the step after that is refused with it. Safe: the word names no operation. -/
  | illegalCommand (w : Word)
  deriving DecidableEq, Repr

/-- The chip array as (address, byte) pairs, addresses strictly rising, no byte equal to what an unlisted address reads as
(`Memory.wf`, Ops.lean). -/
abbrev Memory := List Host.Cell

structure State where
  /-- The parameters of 00_scope.md R6; no step changes them. -/
  params : Params
  /-- The host's command list (00_scope.md R13, R14). -/
  cmds : List Word
  /-- The index of the next host command (00_scope.md R13). -/
  pc : Nat
  /-- `s.cfg` (10_state.md R20, R23). -/
  cfg : PinConfig
  /-- `s.init` (10_state.md R24). -/
  init : Bool
  /-- The modes of the control pins (10_state.md R25). -/
  ctrlMode : CtrlModes
  /-- `s.lvl` (10_state.md R26). -/
  lvl : Levels
  /-- `s.busDir` (10_state.md R27). -/
  busDir : PinMode
  /-- `s.dout` (10_state.md R28). -/
  dout : Byte
  /-- `s.sr`: the shift stages (10_state.md R29). -/
  sr : Half
  /-- `s.q`: the output latch (10_state.md R30). -/
  q : Half
  /-- `s.out`: results returned to the host (10_state.md R32). -/
  out : List Byte
  /-- `s.trace`: the pin-level events (10_state.md R33). -/
  trace : List Event
  /-- `s.ie`: the platform's interrupt-enable flag (10_state.md R34). -/
  ie : Bool
  /-- `s.fault` with `s.faultInfo` (10_state.md R35, 60_exceptions.md R222). -/
  fault : Option Fault
  /-- `s.refused` (10_state.md R35). -/
  refused : Option Refusal
  /-- `s.pollCtx` (43_completion_poller.md R171). -/
  pollCtx : Option PollCtx
  /-- `s.chip` (20_memory.md R53). -/
  chip : Chip
  /-- `s.mem` (20_memory.md R50). -/
  mem : Memory
  /-- The model's own: how many free values have been taken (notes/assumptions/3.md). -/
  draws : Nat
  /-- The model's own: the environment's schedule of the chip's completion step, oldest entry first; `true` completes the
  write cycle in flight (20_memory.md R57, notes/assumptions/3.md). -/
  chipPlan : List Bool
  deriving DecidableEq, Repr

/-- The launch state for given parameters (70_reset_and_hazards.md R253), the host having issued nothing yet. The values of
`cfg`, `ctrlMode`, `lvl`, `dout`, `sr`, `q`, `out` and the bytes of `mem` are not the spec's (it leaves them unspecified or
draws): DESIGN CHOICE, unsafe (notes/assumptions/1.md, 2.md). -/
def State.launch (p : Params) : State :=
  { params := p
    cmds := []
    pc := 0
    cfg := { sd := 0, sc := 0, sl := 0, dlo := 0, dhi := 0, we := 0 }
    init := false
    ctrlMode := { sd := .unknown, sc := .unknown, sl := .unknown, we := .unknown }
    lvl := { sd := false, sc := false, sl := false, we := false }
    busDir := .unknown
    dout := 0#8
    sr := 0#16
    q := 0#16
    out := []
    trace := []
    ie := p.ie0
    fault := none
    refused := none
    pollCtx := none
    chip := .idle
    mem := []
    draws := 0
    chipPlan := [] }

/-- The machine right after power-up, before the first command (70_reset_and_hazards.md R253, R254): construction (INIT)
is the first command a program gives. -/
def State.reset : State := State.launch Config.defaultParams

end Sys2Proof.Machine
end

