-- ==== Sys2Proof/Machine/Operands.lean ====
section
/-! DEFINITION. Operand forms: the address operand, the address/control frame and the data-line bit map
(30_encoding.md R80 to R89). -/

namespace Sys2Proof.Machine

/-- The address operand is one of the chip's addresses 0..32767 (30_encoding.md R82). -/
def addrInRange (a : Half) : Bool := a.toNat ≤ 0x7FFF

/-- `a[14:0]`: the address the chip sees (30_encoding.md R82). -/
def chipAddr (a : Half) : ChipAddr := a.extractLsb' 0 15

/-- The frame word `F = b2u(!oe) ++ a[14:0]` (30_encoding.md R80). -/
def frame (a : Half) (oe : Bool) : Half := BitVec.ofBool (!oe) ++ chipAddr a

/-- Frame 1, `F[15:8]` (30_encoding.md R81). -/
def frameHigh (f : Half) : Byte := f.extractLsb' 8 8

/-- Frame 2, `F[7:0]` (30_encoding.md R81). -/
def frameLow (f : Half) : Byte := f.extractLsb' 0 8

/-- The inverse of `frame` on its range (30_encoding.md R85). -/
def decodeFrame (f : Half) : Half × Bool := (BitVec.zeroExtend 16 (f.extractLsb' 0 15), !f[15])

/-- The data lines in the order WRBYTE drives them (30_encoding.md R88). -/
def linesUp : List (Fin 8) := [0, 1, 2, 3, 4, 5, 6, 7]

/-- The data lines in the order RDBYTE samples them (30_encoding.md R88). -/
def linesDown : List (Fin 8) := [7, 6, 5, 4, 3, 2, 1, 0]

/-- `v[6:0] ++ b`: the accumulator of a read moved left by one, a new bit in at bit 0 (41_data_bus.md R125). -/
def shiftInBit (v : Byte) (b : Level) : Byte := v.extractLsb' 0 7 ++ BitVec.ofBool b

/-- `0 ++ x[7:1]`: the data of a write moved right by one (41_data_bus.md R128). -/
def shiftOutBit (x : Byte) : Byte := 0#1 ++ x.extractLsb' 1 7

/-- `d` with bit `i` replaced by `l` (`s.dout[i] <- l`, 00_scope.md R9). -/
def setLine (d : Byte) (i : Fin 8) (l : Level) : Byte :=
  if l then d ||| (1#8 <<< i.val) else d &&& ~~~(1#8 <<< i.val)

/-- `sr[14:0] ++ b`: the chain's stages after a rising edge of SC (10_state.md R29). -/
def shiftStages (sr : Half) (b : Level) : Half := sr.extractLsb' 0 15 ++ BitVec.ofBool b

end Sys2Proof.Machine
end

