-- ==== Sys2Proof/Machine/Ops.lean ====
section
/-! DEFINITION. The named operations over the state: memory, free values, pins and their edges, the trace, the chip, fault
entry, and what one block step fetches. There is NO return from a fault: `fault` is never cleared (60_exceptions.md R225). -/

namespace Sys2Proof.Machine

/-! ### The chip array -/

/-- What a byte nothing has written reads as. The spec makes it a free draw (20_memory.md R58): DESIGN CHOICE, unsafe
(notes/assumptions/2.md). -/
def Memory.unlisted : Byte := 0#8

/-- The byte at an address (20_memory.md R50). -/
def Memory.read (m : Memory) (a : Nat) : Byte :=
  match m with
  | [] => Memory.unlisted
  | (b, v) :: t => if a = b then v else Memory.read t a

/-- A new cell in front of `t`, unless it holds what an unlisted address reads as. -/
def Memory.cons (a : Nat) (v : Byte) (t : Memory) : Memory :=
  if v = Memory.unlisted then t else (a, v) :: t

/-- The array with `v` stored at `a` (20_memory.md R57), in canonical form. -/
def Memory.write (m : Memory) (a : Nat) (v : Byte) : Memory :=
  match m with
  | [] => Memory.cons a v []
  | (b, w) :: t =>
    if a < b then Memory.cons a v ((b, w) :: t)
    else if a = b then Memory.cons a v t
    else (b, w) :: Memory.write t a v

/-- Every listed address is at least `lo` and below 32768, addresses rise strictly, and no listed byte is one an unlisted
address would read as. -/
def Memory.wfFrom (lo : Nat) (m : Memory) : Bool :=
  match m with
  | [] => true
  | (b, v) :: t => decide (lo ≤ b) && decide (b < 32768) && decide (v ≠ Memory.unlisted) && Memory.wfFrom (b + 1) t

/-- The canonical form of the chip array. -/
def Memory.wf (m : Memory) : Bool := Memory.wfFrom 0 m

/-! ### Free values, the trace, fault entry -/

/-- `draw()` of width `w` (00_scope.md R8): the next free value. -/
def State.draw (s : State) (w : Nat) : BitVec w × State :=
  (Config.freeValue w s.draws, { s with draws := s.draws + 1 })

/-- `emit(e)` (00_scope.md R8). -/
def State.emit (s : State) (e : Event) : State := { s with trace := s.trace ++ [e] }

/-- Fault entry (60_exceptions.md R222): the fault and its information are recorded; nothing else changes, no handler runs. -/
def State.raise (s : State) (f : Fault) : State := { s with fault := some f }

/-- A refusal is recorded; nothing else changes (60_exceptions.md R224). -/
def State.refuse (s : State) (r : Refusal) : State := { s with refused := some r }

/-- The fault code of 60_exceptions.md R220. -/
def Fault.code (f : Fault) : Nat :=
  match f with
  | .configurationError _ => 1
  | .addressOutOfRange _ => 2
  | .writeTimeout _ _ => 3
  | .notInitialized _ => 16
  | .alreadyInitialized => 17
  | .busDirection _ _ => 18
  | .busContention _ _ => 19
  | .pulsePrecondition _ _ => 20
  | .chipBusy _ => 21

/-- `s.out <- s.out ++ [v]` (10_state.md R32). -/
def State.answer (s : State) (v : Byte) : State := { s with out := s.out ++ [v] }

/-- `pc <- pc + 1`: the command is complete (00_scope.md R13). -/
def State.advance (s : State) : State := { s with pc := s.pc + 1 }

/-! ### The result of a part of a command -/

/-- A sub-step either goes on with a value, or has raised a fault that ends the command there (60_exceptions.md R222). -/
inductive SubStep (α : Type) where
  | done (v : α) (s : State)
  | raised (s : State)

/-- The next sub-step runs only where the one before raised nothing. -/
def SubStep.andThen {α β : Type} (r : SubStep α) (k : α → State → SubStep β) : SubStep β :=
  match r with
  | .done v s => k v s
  | .raised s => .raised s

/-- The end of a command: what it does last and `pc <- pc + 1`, or the fault it raised. -/
def SubStep.finish {α : Type} (r : SubStep α) (last : α → State → State) : Host.Outcome State Fault Refusal :=
  match r with
  | .done v s => .next (last v s).advance
  | .raised s => .next s

/-- `if !s.init : raise NotInitialized(op)`, the first check of every command but INIT (60_exceptions.md R221). -/
def ifInitialized (i : Instr) (s : State) (body : Host.Outcome State Fault Refusal) : Host.Outcome State Fault Refusal :=
  if s.init then body else .next (s.raise (.notInitialized i.opcode))

/-- `MODE = HARDENED and a > 0x7FFF` (30_encoding.md R82). -/
def addrRejected (a : Half) (s : State) : Bool := decide (s.params.mode = .hardened) && !addrInRange a

/-- `if MODE = HARDENED and a > 0x7FFF : raise AddressOutOfRange(a)`, before any event (60_exceptions.md R223). -/
def ifAddressed (a : Half) (s : State) (body : Host.Outcome State Fault Refusal) : Host.Outcome State Fault Refusal :=
  if addrRejected a s then .next (s.raise (.addressOutOfRange a)) else body

/-! ### The chip -/

/-- The chip drives the bus iff `/OE = 0` and `/WE = 1` (20_memory.md R54, 10_state.md R38; /CE is held active). -/
def State.chipDrives (s : State) : Bool := !s.q[15] && s.lvl.we

/-- `ChipDrive(A)`: the byte the chip drives (20_memory.md R55). -/
def State.chipDrive (s : State) (a : ChipAddr) : Byte × State :=
  match s.chip with
  | .idle => (s.mem.read a.toNat, s)
  | .writing a' d' =>
    if a = a' then (BitVec.ofBool (!d'[7]) ++ (s.draw 7).1, (s.draw 7).2) else s.draw 8

/-- `MemWrite(q[14:0], 1, dout)`: a write cycle starts (20_memory.md R56). -/
def State.startWrite (s : State) : State := { s with chip := .writing (chipAddr s.q) s.dout }

/-- `ChipComplete`: the byte is stored and the chip is Idle (20_memory.md R57). -/
def State.chipComplete (s : State) : State :=
  match s.chip with
  | .idle => s
  | .writing a d => { s with mem := s.mem.write a.toNat d, chip := .idle }

/-- Whether the chip takes its completion step now, and the state with that choice taken. It has one only while writing
(20_memory.md R57); the choice is the head of the schedule in State, and a free one where the schedule is used up. -/
def State.chipTurn (s : State) : Bool × State :=
  match s.chip, s.chipPlan with
  | .idle, _ => (false, s)
  | .writing _ _, b :: rest => (b, { s with chipPlan := rest })
  | .writing _ _, [] => (Config.chipChoice s.draws, { s with draws := s.draws + 1 })

/-! ### Pins (00_scope.md R9) -/

/-- The levels with one pin's replaced. -/
def Levels.set (l : Levels) (p : Pin) (v : Level) : Levels :=
  match p with
  | .sd => { l with sd := v }
  | .sc => { l with sc := v }
  | .sl => { l with sl := v }
  | .we => { l with we := v }

/-- What a rising edge of a control pin does: SC shifts the stages (10_state.md R29), SL copies them to the latch (R30), WE
starts the chip's write cycle (20_memory.md R56). The edges of SC and SL are PRESUMED by the spec, unsafe
(notes/assumptions/11.md). -/
def State.risingEdge (s : State) (p : Pin) : State :=
  match p with
  | .sd => s
  | .sc => { s with sr := shiftStages s.sr s.lvl.sd }
  | .sl => { s with q := s.sr }
  | .we => s.startWrite

/-- The level of a control pin. -/
def Levels.get (l : Levels) (p : Pin) : Level :=
  match p with
  | .sd => l.sd
  | .sc => l.sc
  | .sl => l.sl
  | .we => l.we

/-- The level is set and the event emitted, with no edge's effect. -/
def State.drivePin (s : State) (p : Pin) (v : Level) : State := { s.emit (.pin p v) with lvl := s.lvl.set p v }

/-- `PinWrite(p, l)`: the level is set, the event emitted, and a rising edge has its effect (00_scope.md R9). -/
def State.pinWrite (s : State) (p : Pin) (v : Level) : State :=
  if v && !s.lvl.get p then (s.drivePin p v).risingEdge p else s.drivePin p v

/-- `LineWrite(i, l)` (00_scope.md R9). -/
def State.lineWrite (s : State) (i : Fin 8) (l : Level) : State :=
  { s.emit (.line i l) with dout := setLine s.dout i l }

/-- `BusMode(m)`: all eight lines in one event (00_scope.md R9, 41_data_bus.md R122). -/
def State.setBusMode (s : State) (m : PinMode) : State := { s.emit (.busMode m) with busDir := m }

/-- `BusMode(Input)`, which also makes `s.dout` a draw (41_data_bus.md R120). -/
def State.busToInput (s : State) : State :=
  { (s.setBusMode .input).draw 8 |>.2 with dout := ((s.setBusMode .input).draw 8).1 }

/-- The bus is contended: the block may drive it while the chip does (60_exceptions.md R228). -/
def State.contended (s : State) : Bool := decide (s.busDir ≠ .input) && s.chipDrives

/-- `ContentionCheck()` (60_exceptions.md R228). -/
def contentionCheck (s : State) : SubStep Unit :=
  if s.contended then .raised (s.raise (.busContention s.q s.busDir)) else .done () s

/-! ### The host's commands -/

/-- The word of the next host command; none at the end of the list (00_scope.md R13). -/
def State.fetch (s : State) : Option Word := s.cmds[s.pc]?

end Sys2Proof.Machine
end

