-- ==== Sys2Proof/Machine/Construction.lean ====
section
/-! DEFINITION. INIT: the block's construction (70_reset_and_hazards.md R250 to R252). -/

namespace Sys2Proof.Machine

/-- The effect of INIT with a valid configuration, one atomic event (70_reset_and_hazards.md R250, R252). `sr`, `q`, `ie`,
`chip` and `mem` are not touched. -/
def State.construct (s : State) : State :=
  { (s.draw 8).2 with
    cfg := s.params.pins
    ctrlMode := { sd := .output, sc := .output, sl := .output, we := .output }
    lvl := { sd := s.params.initCtrlLevel.sd, sc := s.params.initCtrlLevel.sc, sl := s.params.initCtrlLevel.sl, we := true }
    busDir := .unknown
    dout := (s.draw 8).1
    out := []
    trace := [.constructed]
    pollCtx := none
    init := true }

/-- INIT (70_reset_and_hazards.md R250): AlreadyInitialized, then ConfigurationError, then construction. -/
def execInit (s : State) : Host.Outcome State Fault Refusal :=
  if s.init then .next (s.raise .alreadyInitialized)
  else if s.params.pins.valid then .next s.construct.advance
  else .next (s.raise (.configurationError s.params.pins))

end Sys2Proof.Machine
end

