-- ==== Sys2Proof/Machine/DataBus.lean ====
section
/-! DEFINITION. DataBusDriver: BUSIN, BUSOUT, RDBYTE, WRBYTE (41_data_bus.md). -/

namespace Sys2Proof.Machine

/-- BUSIN (41_data_bus.md R120). -/
def execBusin (s : State) : Host.Outcome State Fault Refusal :=
  ifInitialized .busin s <| .next s.busToInput.advance

/-- The bus to output mode, then ContentionCheck (41_data_bus.md R121). -/
def busToOutput (s : State) : SubStep Unit := contentionCheck (s.setBusMode .output)

/-- BUSOUT (41_data_bus.md R121). -/
def execBusout (s : State) : Host.Outcome State Fault Refusal :=
  ifInitialized .busout s <| (busToOutput s).finish fun _ s' => s'

/-- `BusValue()`: the byte on the lines in input mode; a draw where nothing drives them (41_data_bus.md R123). -/
def State.busValue (s : State) : Byte × State :=
  if s.chipDrives then s.chipDrive (chipAddr s.q) else s.draw 8

/-- Samples of the lines in the given order, each shifted into the accumulator (41_data_bus.md R124, R125). -/
def sampleLines (b : Byte) (lines : List (Fin 8)) (v : Byte) (s : State) : Byte × State :=
  match lines with
  | [] => (v, s)
  | i :: rest => sampleLines b rest (shiftInBit v b[i]) (s.emit (.sample i))

/-- `RdByteCore()` (41_data_bus.md R125): input mode is checked, then the eight lines are sampled at one instant. -/
def rdByteCore (s : State) : SubStep Byte :=
  if s.busDir ≠ .input then .raised (s.raise (.busDirection Instr.rdbyte.opcode s.busDir))
  else
    let r := sampleLines s.busValue.1 linesDown 0x00#8 s.busValue.2
    .done r.1 r.2

/-- RDBYTE (41_data_bus.md R125). -/
def execRdbyte (s : State) : Host.Outcome State Fault Refusal :=
  ifInitialized .rdbyte s <| (rdByteCore s).finish fun v s' => s'.answer v

/-- The lines driven in the given order with successive low-order bits of `x` (41_data_bus.md R128). -/
def driveLines (lines : List (Fin 8)) (x : Byte) (s : State) : State :=
  match lines with
  | [] => s
  | i :: rest => driveLines rest (shiftOutBit x) (s.lineWrite i x[0])

/-- `WrByteCore(d)` (41_data_bus.md R128). All eight lines are written, so nothing of what `dout` held before stays: the
lines start from 0 here. -/
def wrByteCore (d : Byte) (s : State) : SubStep Unit :=
  if s.busDir ≠ .output then .raised (s.raise (.busDirection (Instr.wrbyte d).opcode s.busDir))
  else .done () (driveLines linesUp d { s with dout := 0#8 })

/-- WRBYTE d (41_data_bus.md R128). -/
def execWrbyte (d : Byte) (s : State) : Host.Outcome State Fault Refusal :=
  ifInitialized (.wrbyte d) s <| (wrByteCore d s).finish fun _ s' => s'

end Sys2Proof.Machine
end

