-- ==== Sys2Proof/Machine/Serializer.lean ====
section
/-! DEFINITION. AddressSerializer: SETADDR (40_address_serializer.md). -/

namespace Sys2Proof.Machine

/-- One bit on the wire: SD to the bit, SC high, SC low (40_address_serializer.md R101). -/
def State.shiftBit (s : State) (b : Level) : State := ((s.pinWrite .sd b).pinWrite .sc true).pinWrite .sc false

/-- Bits `n-1` down to 0 of `f`, one clock pulse each (40_address_serializer.md R101). -/
def State.shiftBits (s : State) (f : Half) (n : Nat) : State :=
  match n with
  | 0 => s
  | n + 1 => (s.shiftBit (f.getLsbD n)).shiftBits f n

/-- `ShiftFrame(F)`: the 16 bits, MSB first (40_address_serializer.md R101, 30_encoding.md R83). -/
def State.shiftFrame (s : State) (f : Half) : State := s.shiftBits f 16

/-- `LatchFrame()`: SL low, high, ContentionCheck, low (40_address_serializer.md R102). -/
def latchFrame (s : State) : SubStep Unit :=
  (contentionCheck ((s.pinWrite .sl false).pinWrite .sl true)).andThen fun _ s' => .done () (s'.pinWrite .sl false)

/-- The source's `setAddress`: the frame of `a` and `oe` shifted out and latched (40_address_serializer.md R100). -/
def setAddress (a : Half) (oe : Bool) (s : State) : SubStep Unit := latchFrame (s.shiftFrame (frame a oe))

/-- SETADDR a, oe (40_address_serializer.md R100). -/
def execSetaddr (a : Half) (oe : Bool) (s : State) : Host.Outcome State Fault Refusal :=
  ifInitialized (.setaddr a oe) s <| ifAddressed a s <| (setAddress a oe s).finish fun _ s' => s'

end Sys2Proof.Machine
end

