-- ==== Sys2Proof/Machine/ReadPath.lean ====
section
/-! DEFINITION. READ and the read the poller and UPDATE share with it (44_device_ops.md R190). -/

namespace Sys2Proof.Machine

/-- `ReadCore(a)`: the bus to input, the address with the chip's outputs on, the byte (44_device_ops.md R190). -/
def readCore (a : Half) (s : State) : SubStep Byte :=
  (setAddress a true s.busToInput).andThen fun _ s' => rdByteCore s'

/-- READ a (44_device_ops.md R190). -/
def execRead (a : Half) (s : State) : Host.Outcome State Fault Refusal :=
  ifInitialized (.read a) s <| ifAddressed a s <| (readCore a s).finish fun v s' => s'.answer v

end Sys2Proof.Machine
end

