-- ==== Sys2Proof/Machine/Poller.lean ====
section
/-! DEFINITION. CompletionPoller: POLL and the poll phase of WRITE and UPDATE (43_completion_poller.md). -/

namespace Sys2Proof.Machine

/-- Where a poll stands after a read that did not match: the count goes up, and in HARDENED the limit is tested after the
compare (43_completion_poller.md R170, R175). The count kept at the fault is DEDUCED (notes/assumptions/7.md). -/
def pollMiss (c : PollCtx) (s : State) : SubStep Bool :=
  let s' := { s with pollCtx := some { c with reads := c.reads + 1 } }
  if s.params.mode = .hardened ∧ c.reads + 1 = s.params.pollLimit then .raised (s'.raise (.writeTimeout c.addr (c.reads + 1)))
  else .done false s'

/-- One poll iteration: the delay, a read, the compare of bit 7; answers whether the poll is over
(43_completion_poller.md R170, R171, R173). -/
def pollIteration (c : PollCtx) (s : State) : SubStep Bool :=
  (readCore c.addr (s.emit .delayPoll)).andThen fun v s' =>
    if v[7] = c.expect then .done true { s' with pollCtx := none } else pollMiss c s'

/-- One block step of a poll: when it is over, `last` and `pc <- pc + 1`; otherwise `pc` stays (43_completion_poller.md
R171). -/
def pollStep (c : PollCtx) (s : State) (last : State → State) : Host.Outcome State Fault Refusal :=
  match pollIteration c s with
  | .done true s' => .next (last s').advance
  | .done false s' => .next s'
  | .raised s' => .next s'

/-- POLL a, e (43_completion_poller.md R170): the step that begins it makes the first read; a poll in flight goes on from
`s.pollCtx`. -/
def execPoll (a : Half) (e : Bool) (s : State) : Host.Outcome State Fault Refusal :=
  ifInitialized (.poll a e) s <|
    match s.pollCtx with
    | some c => pollStep c s fun s' => s'
    | none =>
      ifAddressed a s <|
        let c : PollCtx := { addr := a, expect := e, reads := 0 }
        pollStep c { s with pollCtx := some c } fun s' => s'

end Sys2Proof.Machine
end

