-- ==== Sys2Proof/Machine/Flags.lean ====
section
/-! DEFINITION. The block has no condition flags (10_state.md, first paragraph). The one flag it writes is the platform's
interrupt-enable flag (10_state.md R34), inside the write pulse only. -/

namespace Sys2Proof.Machine

/-- `IrqSet(b)` (00_scope.md R9). -/
def State.irqSet (s : State) (b : Bool) : State := { s.emit (.irq b) with ie := b }

/-- `IrqDisable()` (00_scope.md R9). -/
def State.irqDisable (s : State) : State := s.irqSet false

/-- The flag after the pulse: on, or the value at entry, as `IRQ_EXIT` says (42_write_pulse.md R154). -/
def irqAfterPulse (x : IrqExit) (saved : Bool) : Bool :=
  match x with
  | .enable => true
  | .restore => saved

end Sys2Proof.Machine
end

