-- ==== Sys2Proof/Machine/WritePulse.lean ====
section
/-! DEFINITION. WritePulseGenerator: PULSEWE (42_write_pulse.md). The model is under the named assumption `PULSE_OK`
(R153, notes/assumptions/9.md). -/

namespace Sys2Proof.Machine

/-- The pulse itself: interrupts off, /WE low, the delay, /WE high (the chip starts its write cycle), interrupts as
`IRQ_EXIT` says; one path, no early exit (42_write_pulse.md R150, R154, R155). -/
def State.pulse (s : State) : State :=
  ((((s.irqDisable.pinWrite .we false).emit (.delayWe s.params.nWeNop)).pinWrite .we true).irqSet
    (irqAfterPulse s.params.irqExit s.ie))

/-- `PulseCore()`: the preconditions in the order of 42_write_pulse.md R151, all before the first event, then the pulse. -/
def pulseCore (s : State) : SubStep Unit :=
  if s.busDir ≠ .output ∨ s.q[15] = false then .raised (s.raise (.pulsePrecondition s.busDir s.q[15]))
  else if s.chip ≠ .idle then .raised (s.raise (.chipBusy s.chip))
  else .done () s.pulse

/-- PULSEWE (42_write_pulse.md R150). -/
def execPulsewe (s : State) : Host.Outcome State Fault Refusal :=
  ifInitialized .pulsewe s <| (pulseCore s).finish fun _ s' => s'

end Sys2Proof.Machine
end

