-- ==== Sys2Proof/Machine/DeviceOps.lean ====
section
/-! DEFINITION. EepromDevice: WRITE and UPDATE (44_device_ops.md). -/

namespace Sys2Proof.Machine

/-- `WriteCore(a, d)` up to and including PulseCore, one block step (44_device_ops.md R193). Its contention check can fire
only where SC was high at the start: DEDUCED, safe (notes/assumptions/8.md). -/
def writePulsed (a : Half) (d : Byte) (s : State) : SubStep Unit :=
  (setAddress a false s).andThen fun _ s1 =>
    (busToOutput s1).andThen fun _ s2 =>
      (wrByteCore d s2).andThen fun _ s3 => pulseCore s3

/-- The first block step of a write: the pulse, then the poll begins with no read done (44_device_ops.md R193). -/
def writeBegin (a : Half) (d : Byte) (s : State) : Host.Outcome State Fault Refusal :=
  match writePulsed a d s with
  | .done _ s' => .next { s' with pollCtx := some { addr := a, expect := d[7], reads := 0 } }
  | .raised s' => .next s'

/-- WRITE a, d (44_device_ops.md R193). -/
def execWrite (a : Half) (d : Byte) (s : State) : Host.Outcome State Fault Refusal :=
  ifInitialized (.write a d) s <|
    match s.pollCtx with
    | some c => pollStep c s fun s' => s'
    | none => ifAddressed a s <| writeBegin a d s

/-- UPDATE's compare after its read: equal, 'no write performed'; otherwise the write begins (44_device_ops.md R196). -/
def updateBegin (a : Half) (d : Byte) (s : State) : Host.Outcome State Fault Refusal :=
  match readCore a s with
  | .done v s' => if v = d then .next (s'.answer 0#8).advance else writeBegin a d s'
  | .raised s' => .next s'

/-- UPDATE a, d (44_device_ops.md R196): 1 is appended when the poll of its write is over. -/
def execUpdate (a : Half) (d : Byte) (s : State) : Host.Outcome State Fault Refusal :=
  ifInitialized (.update a d) s <|
    match s.pollCtx with
    | some c => pollStep c s fun s' => s'.answer 1#8
    | none => ifAddressed a s <| updateBegin a d s

end Sys2Proof.Machine
end

