-- ==== Sys2Proof/Machine/Dispatch.lean ====
section
/-! DEFINITION. The dispatch: one arm per command (00_scope.md R11). -/

namespace Sys2Proof.Machine

def exec (i : Instr) (s : State) : Host.Outcome State Fault Refusal :=
  match i with
  | .init => Sys2Proof.Machine.execInit s
  | .setaddr a oe => Sys2Proof.Machine.execSetaddr a oe s
  | .busin => Sys2Proof.Machine.execBusin s
  | .busout => Sys2Proof.Machine.execBusout s
  | .rdbyte => Sys2Proof.Machine.execRdbyte s
  | .wrbyte d => Sys2Proof.Machine.execWrbyte d s
  | .pulsewe => Sys2Proof.Machine.execPulsewe s
  | .poll a e => Sys2Proof.Machine.execPoll a e s
  | .read a => Sys2Proof.Machine.execRead a s
  | .write a d => Sys2Proof.Machine.execWrite a d s
  | .update a d => Sys2Proof.Machine.execUpdate a d s

end Sys2Proof.Machine
end

