-- ==== Sys2Proof/Machine/BlockStep.lean ====
section
/-! DEFINITION. What one block step fetches and runs, and how the host places a command (00_scope.md R12 to R14). -/

namespace Sys2Proof.Machine

/-- One block step: the next host command runs; a word that spells none is refused and recorded (60_exceptions.md R224);
at the end of the list the block does nothing (70_reset_and_hazards.md R254). -/
def blockStep (s : State) : Host.Outcome State Fault Refusal :=
  match s.fetch with
  | none => .next s
  | some w =>
    match decode w with
    | .ok i => exec i s
    | .error _ => .next (s.refuse (.illegalCommand w))

/-- The command list with `w` as the command at index `pc`. -/
def placeWord (cmds : List Word) (pc : Nat) (w : Word) : List Word :=
  cmds.take pc ++ List.replicate (pc - cmds.length) 0#32 ++ [w] ++ cmds.drop (pc + 1)

end Sys2Proof.Machine
end

