-- ==== Sys2Proof/Machine/Step.lean ====
section
/-! DEFINITION. One step of the machine: the chip's completion step, or one block step (00_scope.md R10, R12). -/

namespace Sys2Proof.Machine

/-- One step. After a fault or a refusal no command runs (60_exceptions.md R225): the step stops with what is recorded.
Otherwise the chip completes its write cycle, if it takes its turn, or the block takes a step (20_memory.md R57). The form
of the stop is DEDUCED, safe (notes/assumptions/6.md). No interrupt routine steps (notes/assumptions/10.md). -/
def step (s : State) : Host.Outcome State Fault Refusal :=
  match s.fault, s.refused with
  | some f, _ => .fault f
  | none, some r => .refused r
  | none, none => if s.chipTurn.1 then .next s.chipTurn.2.chipComplete else blockStep s.chipTurn.2

/-- `s` with a word placed as the host's next command. What would keep it from being fetched next is cleared: a recorded
fault or refusal, a poll in flight, and (while the chip is writing) the chip's turn before it (notes/assumptions/5.md). -/
def State.withFetchWord (s : State) (nbits w : Nat) : State :=
  { s with
    cmds := placeWord s.cmds s.pc (BitVec.ofNat 32 (w % 2 ^ nbits))
    fault := none
    refused := none
    pollCtx := none
    chipPlan := if s.chip = .idle then s.chipPlan else false :: s.chipPlan }

end Sys2Proof.Machine
end

