-- ==== Sys2Proof/Safety.lean ====
section
/-! DEFINITION. The terms claims are made in: the event sequences of the protocol, the observations of a run, the byte
a read returns, the named assumptions, and the invariants. -/

namespace Sys2Proof

/-- The low phase of a write pulse: the no-ops and the overhead of the two pin writes (42_write_pulse.md R153). -/
def Params.lowPhase (p : Params) : Nat := p.nWeNop * p.timing.tCycle + p.timing.tPinWrites

/-- `PULSE_OK` (42_write_pulse.md R153): the low phase is within the chip's bounds. -/
def Params.pulseOk (p : Params) : Bool :=
  decide (p.timing.tWpMin ≤ p.lowPhase) &&
    match p.timing.tWpMax with
    | none => true
    | some m => decide (p.lowPhase ≤ m)

namespace Machine

/-! ### Event sequences (70_reset_and_hazards.md R276) -/

/-- The three events of one bit on the wire (40_address_serializer.md R101). -/
def bitEvents (b : Level) : List Event := [.pin .sd b, .pin .sc true, .pin .sc false]

/-- The events of bits `n-1` down to 0 of `f`. -/
def shiftEvents (f : Half) (n : Nat) : List Event :=
  match n with
  | 0 => []
  | n + 1 => bitEvents (f.getLsbD n) ++ shiftEvents f n

/-- The 51 events of a SETADDR with no fault (40_address_serializer.md R103). -/
def setaddrEvents (f : Half) : List Event := shiftEvents f 16 ++ [.pin .sl false, .pin .sl true, .pin .sl false]

/-- The eight samples of a RDBYTE, line 7 first (41_data_bus.md R125). -/
def sampleEvents : List Event := linesDown.map .sample

/-- The eight line writes of a WRBYTE, line 0 first (41_data_bus.md R128). -/
def driveEvents (d : Byte) : List Event := linesUp.map fun i => .line i d[i]

/-- The five events of a pulse (42_write_pulse.md R150). -/
def pulseEvents (p : Params) (ie : Bool) : List Event :=
  [.irq false, .pin .we false, .delayWe p.nWeNop, .pin .we true, .irq (irqAfterPulse p.irqExit ie)]

/-- The 60 events of a READ (44_device_ops.md R190). -/
def readEvents (a : Half) : List Event := .busMode .input :: (setaddrEvents (frame a true) ++ sampleEvents)

/-- The 65 events of a WRITE up to and including its pulse (44_device_ops.md R193). -/
def writeEvents (p : Params) (ie : Bool) (a : Half) (d : Byte) : List Event :=
  setaddrEvents (frame a false) ++ .busMode .output :: (driveEvents d ++ pulseEvents p ie)

/-! ### Observations -/

/-- The number of write pulses in a trace (10_state.md R37). INIT starts the trace anew, so all its events come after the
INIT event. -/
def pulses (t : List Event) : Nat := t.count (.pin .we false)

/-- A final state (00_scope.md R15). -/
def State.isFinal (s : State) : Bool :=
  decide (s.pc = s.cmds.length) && s.fault.isNone && s.refused.isNone && decide (s.chip = .idle)

/-- The host command at `pc`, where the word there spells one. -/
def State.command (s : State) : Option Instr :=
  match s.fetch with
  | none => none
  | some w => (decode w).toOption

/-- What RDBYTE's assembly makes of eight line levels: line 7 first, shifting left (41_data_bus.md R125, R131). -/
def assembleLines (levels : Byte) (lines : List (Fin 8)) (v : Byte) : Byte :=
  match lines with
  | [] => v
  | i :: rest => assembleLines levels rest (shiftInBit v levels[i])

/-- Bit 7 of what a read of `a` sees while the chip drives the bus, where the contract fixes it: the stored bit when the
chip is Idle, the complement of the written bit when it is writing there (20_memory.md R55). -/
def State.echo (s : State) (a : Half) : Option Bool :=
  match s.chip with
  | .idle => some (s.mem.read (chipAddr a).toNat)[7]
  | .writing a' d => if chipAddr a = a' then some (!d[7]) else none

/-- What a frame leaves in the shift stages: itself, or with its first bit lost where SC was high, so that bit 15 is the old
stage 0 (40_address_serializer.md R103, R104). -/
def framed (s : State) (f : Half) : Half := if s.lvl.sc then BitVec.ofBool (s.sr[0]) ++ f.extractLsb' 0 15 else f

/-- The state in which a read of `a` samples the lines: the bus in input mode, the frame of `a` with the outputs on latched
(44_device_ops.md R190). -/
def readLatched (a : Half) (s : State) : State :=
  { s with
    busDir := .input
    dout := Config.freeValue 8 s.draws
    draws := s.draws + 1
    lvl := { s.lvl with sd := (frame a true).getLsbD 0, sc := false, sl := false }
    sr := framed s (frame a true)
    q := framed s (frame a true)
    trace := s.trace ++ .busMode .input :: setaddrEvents (frame a true) }

/-- The byte a read of `a` returns (44_device_ops.md R191). -/
def readByte (a : Half) (s : State) : Byte := (readLatched a s).busValue.1

/-- The byte a poll iteration compares: its read comes after the delay (43_completion_poller.md R170). -/
def pollByte (c : PollCtx) (s : State) : Byte := readByte c.addr (s.emit .delayPoll)

/-- Bit 7 of the byte a poll iteration reads is `b`: by the read itself, or because the chip, read with SC low and /WE high,
echoes `b` there. -/
def PollReads (c : PollCtx) (s : State) (b : Bool) : Prop :=
  (pollByte c s).getLsbD 7 = b ∨ (s.lvl.sc = false ∧ s.lvl.we = true ∧ s.echo c.addr = some b)

/-- The poll that a POLL a, e runs: the one in flight, or a new one with no read done (43_completion_poller.md R171). -/
def State.pollOf (s : State) (a : Half) (e : Bool) : PollCtx :=
  match s.pollCtx with
  | some c => c
  | none => { addr := a, expect := e, reads := 0 }

/-- The poll in flight, if any, with another address in it; nothing else changes. -/
def State.withPollAddr (s : State) (a : Half) : State :=
  { s with pollCtx := s.pollCtx.map fun c => { c with addr := a } }

/-- Commands run one after another, stopping at a fault (30_encoding.md R95). -/
def execAll (cs : List Instr) (s : State) : Host.Outcome State Fault Refusal :=
  match cs with
  | [] => .next s
  | i :: rest =>
    match exec i s with
    | .next t => if t.fault.isSome then .next t else execAll rest t
    | .fault f => .fault f
    | .refused r => .refused r

/-! ### Named assumptions -/

/-- `CHIP_COMPLETES` (20_memory.md R57) for a run: whenever the chip is writing, it is Idle at some later step. -/
def ChipCompletes (s : State) : Prop :=
  ∀ n t, Sys2Proof.core.run n s = .next t → t.chip ≠ .idle → ∃ m u, Sys2Proof.core.run m t = .next u ∧ u.chip = .idle

/-! ### Invariants -/

/-- The event is one of a latch pulse, which only a SETADDR has (its own, or one inside READ, WRITE, UPDATE or POLL). -/
def Event.latches (e : Event) : Bool :=
  match e with
  | .pin .sl _ => true
  | _ => false

/-- The event turns the bus to output mode, which only a BUSOUT does (its own, or one inside WRITE or UPDATE). -/
def Event.turnsOut (e : Event) : Bool :=
  match e with
  | .busMode .output => true
  | _ => false

/-- Some SETADDR has run. -/
def State.serialUsed (s : State) : Bool := s.trace.any Event.latches

/-- Some SETADDR or BUSOUT has run. -/
def State.busUsed (s : State) : Bool := s.trace.any Event.latches || s.trace.any Event.turnsOut

/-- The invariants of 10_state.md R39. -/
structure PinInv (s : State) : Prop where
  /-- (a) /WE is high. -/
  weHigh : s.init = true → s.lvl.we = true
  /-- (b) No bus contention once any SETADDR or BUSOUT has run. -/
  busFree : s.init = true → s.fault = none → s.busUsed = true → ¬ (s.busDir ≠ .input ∧ s.q[15] = false)
  /-- (c) SC and SL are low once any SETADDR has run. -/
  serialLow : s.init = true → s.fault = none → s.serialUsed = true → s.lvl.sc = false ∧ s.lvl.sl = false

/-- After construction the configuration is a valid one (10_state.md R22, R23). -/
def CfgInv (s : State) : Prop := s.init = true → s.cfg.valid = true

/-- Who owns a poll in flight, and what it waits for (43_completion_poller.md R171, 44_device_ops.md R193, R196). -/
structure PollInv (s : State) : Prop where
  /-- A poll is in flight only at a POLL, WRITE or UPDATE, with that command's address and expected bit. -/
  owned : ∀ c, s.pollCtx = some c →
    s.command = some (.poll c.addr c.expect) ∨
      ∃ d : Byte, c.expect = d[7] ∧ (s.command = some (.write c.addr d) ∨ s.command = some (.update c.addr d))
  /-- Only after construction and once the serial lines have been used. -/
  used : s.pollCtx ≠ none → s.init = true ∧ s.serialUsed = true
  /-- While the poll of a write is in flight, the chip is writing that byte there or has stored it. -/
  tracked : ∀ c a d, s.pollCtx = some c → s.command = some (.write a d) ∨ s.command = some (.update a d) →
    s.chip = .writing (chipAddr a) d ∨ (s.chip = .idle ∧ s.mem.read (chipAddr a).toNat = d)

/-- In HARDENED a poll in flight has not used up its limit (43_completion_poller.md R175). -/
def PollBound (s : State) : Prop :=
  ∀ c, s.params.mode = .hardened → s.fault = none → s.pollCtx = some c → c.reads < s.params.pollLimit

end Machine

end Sys2Proof
end

