-- ==== Sys2Proof/Certificates/Slice0/Obligations.lean ====
section
/-! DEFINITION. The statements about the block, each from the spec's rules. -/

open Sys2Proof Sys2Proof.Machine

/-! ### Launch and construction -/

/-- 70_reset_and_hazards.md R253, the elements it fixes, for every value of the parameters. -/
def Obligations.LaunchStateFixedElements : Prop :=
  ∀ p : Params,
    (State.launch p).pc = 0 ∧ (State.launch p).init = false ∧ (State.launch p).fault = none ∧
    (State.launch p).refused = none ∧ (State.launch p).pollCtx = none ∧ (State.launch p).ie = p.ie0 ∧
    (State.launch p).chip = .idle ∧ (State.launch p).busDir = .unknown ∧ (State.launch p).trace = []

/-- 70_reset_and_hazards.md R252 with R250's effects and 10_state.md R40's values; `dout` is the next free value. -/
def Obligations.InitConstructsInOneEvent : Prop :=
  ∀ s : State, s.init = false → s.params.pins.valid = true →
    exec .init s = .next { s with
      cfg := s.params.pins, init := true
      ctrlMode := { sd := .output, sc := .output, sl := .output, we := .output }
      lvl := { sd := s.params.initCtrlLevel.sd, sc := s.params.initCtrlLevel.sc, sl := s.params.initCtrlLevel.sl
               we := true }
      busDir := .unknown, dout := Config.freeValue 8 s.draws, draws := s.draws + 1
      out := [], trace := [.constructed], pollCtx := none, pc := s.pc + 1 }

/-- 70_reset_and_hazards.md R251. -/
def Obligations.SecondInitFaultsAndChangesNothing : Prop :=
  ∀ s : State, s.init = true → exec .init s = .next { s with fault := some .alreadyInitialized }

/-- 10_state.md R22. -/
def Obligations.ConfigurationValidity : Prop :=
  (∀ c : PinConfig, c.valid = true ↔
    c.dhi = c.dlo + 7 ∧ [c.sd, c.sc, c.sl, c.we].Nodup ∧ ∀ p ∈ [c.sd, c.sc, c.sl, c.we], p < c.dlo ∨ c.dlo + 7 < p) ∧
  ∀ s : State, s.init = false → s.params.pins.valid = false →
    exec .init s = .next { s with fault := some (.configurationError s.params.pins) }

/-- 10_state.md R23: only INIT writes `cfg`, no step changes it after construction, and a second INIT is a fault. The control
pins' modes stay too (R25). -/
def Obligations.ConfigurationNeverMutated : Prop :=
  (∀ (i : Instr) (s t : State), i ≠ .init → exec i s = .next t → t.cfg = s.cfg) ∧
  (∀ s t : State, s.init = true → step s = .next t → t.cfg = s.cfg ∧ t.init = true ∧ t.ctrlMode = s.ctrlMode) ∧
  ∀ s : State, s.init = true → ∃ t : State, exec .init s = .next t ∧ t.fault = some .alreadyInitialized ∧ t.cfg = s.cfg

/-- 60_exceptions.md R221. -/
def Obligations.CommandsBeforeInitFault : Prop :=
  ∀ (i : Instr) (s : State), i ≠ .init → s.init = false →
    exec i s = .next { s with fault := some (.notInitialized i.opcode) }

/-! ### The frame and the address serializer -/

/-- 30_encoding.md R80, R81, R86. -/
def Obligations.FrameLayout : Prop :=
  ∀ (a : Half) (oe : Bool),
    (frame a oe).getLsbD 15 = !oe ∧ (∀ k < 15, (frame a oe).getLsbD k = a.getLsbD k) ∧
    (frameHigh (frame a oe)).getLsbD 7 = !oe ∧ (∀ k < 7, (frameHigh (frame a oe)).getLsbD k = a.getLsbD (k + 8)) ∧
    (∀ k < 8, (frameLow (frame a oe)).getLsbD k = a.getLsbD k)

/-- 30_encoding.md R85. -/
def Obligations.FrameRoundTrip : Prop :=
  (∀ f : Half, (decodeFrame f).2 = !f.getLsbD 15 ∧ (decodeFrame f).1.getLsbD 15 = false ∧
    ∀ k < 15, (decodeFrame f).1.getLsbD k = f.getLsbD k) ∧
  ∀ (a : Half) (oe : Bool),
    decodeFrame (frame a oe) = (BitVec.zeroExtend 16 (chipAddr a), oe) ∧
    (a.toNat ≤ 0x7FFF → decodeFrame (frame a oe) = (a, oe))

/-- 40_address_serializer.md R103. -/
def Obligations.SetaddrLatchesTheFrame : Prop :=
  ∀ (s : State) (a : Half) (oe : Bool), s.init = true → addrRejected a s = false → s.lvl.sc = false →
    oe = false ∨ s.busDir = .input ∨ s.lvl.we = false →
    (exec (.setaddr a oe) s = .next { s with
      lvl := { s.lvl with sd := (frame a oe).getLsbD 0, sc := false, sl := false }
      sr := frame a oe, q := frame a oe
      trace := s.trace ++ setaddrEvents (frame a oe), pc := s.pc + 1 }) ∧
    setaddrEvents (frame a oe) =
      ((List.range 16).flatMap fun k => [.pin .sd ((frame a oe).getLsbD (15 - k)), .pin .sc true, .pin .sc false]) ++
        [.pin .sl false, .pin .sl true, .pin .sl false] ∧
    (setaddrEvents (frame a oe)).length = 51

/-- 40_address_serializer.md R104. -/
def Obligations.SetaddrWithClockHighLosesFirstBit : Prop :=
  ∀ (s : State) (a : Half) (oe : Bool), s.init = true → addrRejected a s = false → s.lvl.sc = true →
    let r : Half := BitVec.ofBool (s.sr.getLsbD 0) ++ (frame a oe).extractLsb' 0 15
    let lvl : Levels := { s.lvl with sd := (frame a oe).getLsbD 0, sc := false, sl := false }
    chipAddr r = chipAddr a ∧ r.getLsbD 15 = s.sr.getLsbD 0 ∧
    (s.busDir = .input ∨ s.sr.getLsbD 0 = true ∨ s.lvl.we = false →
      exec (.setaddr a oe) s = .next { s with
        lvl := lvl, sr := r, q := r, trace := s.trace ++ setaddrEvents (frame a oe), pc := s.pc + 1 }) ∧
    (s.busDir ≠ .input → s.sr.getLsbD 0 = false → s.lvl.we = true →
      exec (.setaddr a oe) s = .next { s with
        lvl := { lvl with sl := true }, sr := r, q := r
        trace := s.trace ++ (shiftEvents (frame a oe) 16 ++ [.pin .sl false, .pin .sl true])
        fault := some (.busContention r s.busDir) })

/-- 40_address_serializer.md R102, R105: contention is found after the latch edge, before SL goes low. -/
def Obligations.SetaddrContentionAfterLatchEdge : Prop :=
  ∀ (s : State) (a : Half), s.init = true → addrRejected a s = false → s.lvl.sc = false → s.busDir ≠ .input →
    s.lvl.we = true →
    exec (.setaddr a true) s = .next { s with
      lvl := { s.lvl with sd := (frame a true).getLsbD 0, sc := false, sl := true }
      sr := frame a true, q := frame a true
      trace := s.trace ++ (shiftEvents (frame a true) 16 ++ [.pin .sl false, .pin .sl true])
      fault := some (.busContention (frame a true) s.busDir) } ∧
    (shiftEvents (frame a true) 16).length = 48

/-- 60_exceptions.md R220 code 2, R223: rejected before any bus activity, in the five commands with an address. -/
def Obligations.HardenedRejectsAddressAbove7FFF : Prop :=
  ∀ (s : State) (a : Half) (oe e : Bool) (d : Byte), s.init = true → s.params.mode = .hardened → 0x7FFF < a.toNat →
    exec (.setaddr a oe) s = .next { s with fault := some (.addressOutOfRange a) } ∧
    exec (.read a) s = .next { s with fault := some (.addressOutOfRange a) } ∧
    (s.pollCtx = none →
      exec (.poll a e) s = .next { s with fault := some (.addressOutOfRange a) } ∧
      exec (.write a d) s = .next { s with fault := some (.addressOutOfRange a) } ∧
      exec (.update a d) s = .next { s with fault := some (.addressOutOfRange a) })

/-- 30_encoding.md R82 in BASE: bit 15 of the address is ignored. A poll that begins keeps the operand it was given as its
address; its expected bit, its count, whether it is kept and everything else are the same. -/
def Obligations.BaseIgnoresAddressBit15 : Prop :=
  ∀ (s : State) (a : Half) (d : Byte) (e oe : Bool), s.params.mode = .base →
    exec (.setaddr (a ^^^ 0x8000#16) oe) s = exec (.setaddr a oe) s ∧
    exec (.read (a ^^^ 0x8000#16)) s = exec (.read a) s ∧
    (s.pollCtx = none → ∀ t : State,
      (exec (.poll a e) s = .next t →
        exec (.poll (a ^^^ 0x8000#16) e) s = .next (t.withPollAddr (a ^^^ 0x8000#16))) ∧
      (exec (.write a d) s = .next t →
        exec (.write (a ^^^ 0x8000#16) d) s = .next (t.withPollAddr (a ^^^ 0x8000#16))) ∧
      (exec (.update a d) s = .next t →
        exec (.update (a ^^^ 0x8000#16) d) s = .next (t.withPollAddr (a ^^^ 0x8000#16))))

/-! ### The data bus -/

/-- 41_data_bus.md R120: `dout` is forgotten, the next free value takes its place, whatever it held. -/
def Obligations.BusinTurnsBusToInput : Prop :=
  ∀ s : State, s.init = true →
    exec .busin s = .next { s with
      busDir := .input, dout := Config.freeValue 8 s.draws, draws := s.draws + 1
      trace := s.trace ++ [.busMode .input], pc := s.pc + 1 }

/-- 41_data_bus.md R121, 60_exceptions.md R228: BUSOUT, and BUSOUT while the chip drives the bus. -/
def Obligations.BusoutTurnsBusToOutput : Prop :=
  ∀ s : State, s.init = true →
    (s.q.getLsbD 15 = true ∨ s.lvl.we = false →
      exec .busout s = .next { s with busDir := .output, trace := s.trace ++ [.busMode .output], pc := s.pc + 1 }) ∧
    (s.q.getLsbD 15 = false → s.lvl.we = true →
      exec .busout s = .next { s with
        busDir := .output, trace := s.trace ++ [.busMode .output], fault := some (.busContention s.q .output) })

/-- 41_data_bus.md R125 with the chip Idle and driving: the stored byte is appended. -/
def Obligations.RdbyteAppendsStoredByte : Prop :=
  ∀ s : State, s.init = true → s.busDir = .input → s.q.getLsbD 15 = false → s.lvl.we = true → s.chip = .idle →
    exec .rdbyte s = .next { s with
      out := s.out ++ [s.mem.read (chipAddr s.q).toNat]
      trace := s.trace ++ [.sample 7, .sample 6, .sample 5, .sample 4, .sample 3, .sample 2, .sample 1, .sample 0]
      pc := s.pc + 1 }

/-- 41_data_bus.md R126: nothing drives the lines; a free value is appended, and this is no fault. -/
def Obligations.RdbyteWithOutputsOffIsNoFault : Prop :=
  ∀ s : State, s.init = true → s.busDir = .input → s.q.getLsbD 15 = true →
    exec .rdbyte s = .next { s with
      out := s.out ++ [Config.freeValue 8 s.draws], draws := s.draws + 1, trace := s.trace ++ sampleEvents, pc := s.pc + 1 }

/-- 41_data_bus.md R127: at the address being written bit 7 is the complement of the written bit 7 over seven free bits; at
another address the byte is free. The line-7 sample comes first. -/
def Obligations.RdbyteWhileChipWrites : Prop :=
  ∀ (s : State) (a : ChipAddr) (d : Byte), s.init = true → s.busDir = .input → s.q.getLsbD 15 = false →
    s.lvl.we = true → s.chip = .writing a d →
    exec .rdbyte s = .next { s with
      out := s.out ++
        [if chipAddr s.q = a then BitVec.ofBool (!d.getLsbD 7) ++ Config.freeValue 7 s.draws
         else Config.freeValue 8 s.draws]
      draws := s.draws + 1
      trace := s.trace ++ [.sample 7, .sample 6, .sample 5, .sample 4, .sample 3, .sample 2, .sample 1, .sample 0]
      pc := s.pc + 1 }

/-- 60_exceptions.md R220 code 18: a transfer against the bus direction faults before any event. -/
def Obligations.TransferAgainstDirectionFaults : Prop :=
  ∀ (s : State) (d : Byte), s.init = true →
    (s.busDir ≠ .input → exec .rdbyte s = .next { s with fault := some (.busDirection 0x4#4 s.busDir) }) ∧
    (s.busDir ≠ .output → exec (.wrbyte d) s = .next { s with fault := some (.busDirection 0x5#4 s.busDir) })

/-- 41_data_bus.md R128: the byte is on the lines, line 0 driven first. -/
def Obligations.WrbyteDrivesTheByte : Prop :=
  ∀ (s : State) (d : Byte), s.init = true → s.busDir = .output →
    exec (.wrbyte d) s = .next { s with
      dout := d
      trace := s.trace ++ [.line 0 (d.getLsbD 0), .line 1 (d.getLsbD 1), .line 2 (d.getLsbD 2), .line 3 (d.getLsbD 3),
        .line 4 (d.getLsbD 4), .line 5 (d.getLsbD 5), .line 6 (d.getLsbD 6), .line 7 (d.getLsbD 7)]
      pc := s.pc + 1 }

/-- 41_data_bus.md R131: WRBYTE's levels, assembled as RDBYTE assembles its samples, are the byte. -/
def Obligations.LoopbackYieldsTheByte : Prop :=
  ∀ (s : State) (b : Byte), s.init = true → s.busDir = .output →
    ∃ t : State, exec (.wrbyte b) s = .next t ∧ t.fault = s.fault ∧ assembleLines t.dout linesDown 0x00#8 = b ∧
      ((List.finRange 8).map fun i => (t.dout.getLsbD i.val).toNat * 2 ^ i.val).sum = b.toNat

/-! ### The write pulse -/

/-- 42_write_pulse.md R150, R154, R156: the chip starts writing what the lines carry at the latched address. -/
def Obligations.PulseweStartsTheWriteCycle : Prop :=
  ∀ s : State, s.init = true → s.busDir = .output → s.q.getLsbD 15 = true → s.chip = .idle →
    ∃ b : Bool, (s.params.irqExit = .enable → b = true) ∧ (s.params.irqExit = .restore → b = s.ie) ∧
      exec .pulsewe s = .next { s with
        ie := b, lvl := { s.lvl with we := true }, chip := .writing (chipAddr s.q) s.dout
        trace := s.trace ++ [.irq false, .pin .we false, .delayWe s.params.nWeNop, .pin .we true, .irq b]
        pc := s.pc + 1 }

/-- 42_write_pulse.md R151: the two faults, in that order, before the first event. -/
def Obligations.PulsewePreconditionsInOrder : Prop :=
  ∀ s : State, s.init = true →
    (s.busDir ≠ .output ∨ s.q.getLsbD 15 = false →
      exec .pulsewe s = .next { s with fault := some (.pulsePrecondition s.busDir (s.q.getLsbD 15)) }) ∧
    (s.busDir = .output → s.q.getLsbD 15 = true → s.chip ≠ .idle →
      exec .pulsewe s = .next { s with fault := some (.chipBusy s.chip) })

/-! ### The completion poller -/

/-- 43_completion_poller.md R170, R172, R176: the iteration whose read has the expected bit 7 ends POLL, whatever the chip is
doing and wherever SC stands (40_address_serializer.md R104). Since bit 7 is the expected one or the other, this,
`PollGoesOnAfterMiss` and `HardenedPollTimesOutAtLimit` cover every iteration of a constructed machine. -/
def Obligations.PollEndsOnMatchingEcho : Prop :=
  ∀ (s : State) (a : Half) (e : Bool), s.init = true → s.pollCtx ≠ none ∨ addrRejected a s = false →
    PollReads (s.pollOf a e) s (s.pollOf a e).expect →
    ∃ n, s.draws < n ∧ exec (.poll a e) s = .next { s with
      busDir := .input, dout := Config.freeValue 8 s.draws, draws := n
      lvl := { s.lvl with sd := (frame (s.pollOf a e).addr true).getLsbD 0, sc := false, sl := false }
      sr := framed s (frame (s.pollOf a e).addr true), q := framed s (frame (s.pollOf a e).addr true)
      trace := s.trace ++ .delayPoll :: readEvents (s.pollOf a e).addr
      pollCtx := none, pc := s.pc + 1 }

/-- 43_completion_poller.md R170, R171: the iteration whose read has the other bit 7, with the limit not reached, leaves POLL
in flight with its count one higher and `pc` where it was. -/
def Obligations.PollGoesOnAfterMiss : Prop :=
  ∀ (s : State) (a : Half) (e : Bool), s.init = true → s.pollCtx ≠ none ∨ addrRejected a s = false →
    PollReads (s.pollOf a e) s (!(s.pollOf a e).expect) →
    ¬ (s.params.mode = .hardened ∧ (s.pollOf a e).reads + 1 = s.params.pollLimit) →
    ∃ n, s.draws < n ∧ exec (.poll a e) s = .next { s with
      busDir := .input, dout := Config.freeValue 8 s.draws, draws := n
      lvl := { s.lvl with sd := (frame (s.pollOf a e).addr true).getLsbD 0, sc := false, sl := false }
      sr := framed s (frame (s.pollOf a e).addr true), q := framed s (frame (s.pollOf a e).addr true)
      trace := s.trace ++ .delayPoll :: readEvents (s.pollOf a e).addr
      pollCtx := some { s.pollOf a e with reads := (s.pollOf a e).reads + 1 } }

/-- 43_completion_poller.md R175: in HARDENED the limit read that does not match ends the poll with WriteTimeout; the chip is
left as it is. (`PollEndsOnMatchingEcho` says that a limit read that matches is no fault.) That the poll kept at the fault
counts the limit read is the model's reading (notes/assumptions/7.md). -/
def Obligations.HardenedPollTimesOutAtLimit : Prop :=
  ∀ (s : State) (a : Half) (e : Bool), s.init = true → s.pollCtx ≠ none ∨ addrRejected a s = false →
    PollReads (s.pollOf a e) s (!(s.pollOf a e).expect) →
    s.params.mode = .hardened → (s.pollOf a e).reads + 1 = s.params.pollLimit →
    ∃ n, s.draws < n ∧ exec (.poll a e) s = .next { s with
      busDir := .input, dout := Config.freeValue 8 s.draws, draws := n
      lvl := { s.lvl with sd := (frame (s.pollOf a e).addr true).getLsbD 0, sc := false, sl := false }
      sr := framed s (frame (s.pollOf a e).addr true), q := framed s (frame (s.pollOf a e).addr true)
      trace := s.trace ++ .delayPoll :: readEvents (s.pollOf a e).addr
      pollCtx := some { s.pollOf a e with reads := s.params.pollLimit }
      fault := some (.writeTimeout (s.pollOf a e).addr s.params.pollLimit) }

/-- 43_completion_poller.md R174: in BASE a POLL on an Idle chip whose byte never matches runs for ever. -/
def Obligations.BasePollOfOtherBitNeverEnds : Prop :=
  ∀ (s : State) (a : Half) (e : Bool), s.params.mode = .base → s.fault = none → s.refused = none → s.init = true →
    s.lvl.sc = false → s.lvl.we = true → s.chip = .idle → s.pollCtx = none → s.command = some (.poll a e) →
    (s.mem.read (chipAddr a).toNat).getLsbD 7 = !e →
    ∀ n : Nat, ∃ t : State, core.run (n + 1) s = .next t ∧ t.pc = s.pc ∧ t.fault = none ∧ t.refused = none ∧
      t.pollCtx = some { addr := a, expect := e, reads := n + 1 } ∧ t.trace.length = s.trace.length + 61 * (n + 1)

/-! ### The device operations -/

/-- 44_device_ops.md R190, R191, 20_memory.md R55: READ appends the byte it reads and leaves the bus in input mode. The word
latched is the frame, with the chip's outputs on, unless SC was high over a set stage 0 (40_address_serializer.md R104). The
byte is the stored one from an Idle chip, R55's from one that is writing, and a free value where the outputs are off
(41_data_bus.md R126). -/
def Obligations.ReadAppendsStoredByte : Prop :=
  ∀ (s : State) (a : Half), s.init = true → addrRejected a s = false →
    (s.lvl.sc = false ∨ s.sr.getLsbD 0 = false → s.lvl.we = true → s.chip = .idle →
      exec (.read a) s = .next { s with
        busDir := .input, dout := Config.freeValue 8 s.draws, draws := s.draws + 1
        lvl := { s.lvl with sd := a.getLsbD 0, sc := false, sl := false }
        sr := frame a true, q := frame a true
        out := s.out ++ [s.mem.read (chipAddr a).toNat]
        trace := s.trace ++ readEvents a, pc := s.pc + 1 }) ∧
    (∃ n, s.draws < n ∧ exec (.read a) s = .next { s with
      busDir := .input, dout := Config.freeValue 8 s.draws, draws := n
      lvl := { s.lvl with sd := a.getLsbD 0, sc := false, sl := false }
      sr := framed s (frame a true), q := framed s (frame a true)
      out := s.out ++ [readByte a s]
      trace := s.trace ++ readEvents a, pc := s.pc + 1 }) ∧
    (s.lvl.sc = false ∨ s.sr.getLsbD 0 = false → s.lvl.we = true →
      (s.chip = .idle → readByte a s = s.mem.read (chipAddr a).toNat) ∧
      ∀ (a' : ChipAddr) (d : Byte), s.chip = .writing a' d →
        readByte a s = if chipAddr a = a' then BitVec.ofBool (!d.getLsbD 7) ++ Config.freeValue 7 (s.draws + 1)
          else Config.freeValue 8 (s.draws + 1)) ∧
    ((s.lvl.sc = true ∧ s.sr.getLsbD 0 = true) ∨ s.lvl.we = false → readByte a s = Config.freeValue 8 (s.draws + 1))

/-- 44_device_ops.md R192: READ never changes the chip, and on an Idle chip n READs return n copies of the byte. -/
def Obligations.ReadsNeverMutateTheChip : Prop :=
  (∀ (s t : State) (a : Half), exec (.read a) s = .next t → t.chip = s.chip ∧ t.mem = s.mem) ∧
  ∀ (s : State) (a : Half) (n : Nat), s.init = true → s.fault = none → addrRejected a s = false → s.lvl.sc = false →
    s.lvl.we = true → s.chip = .idle →
    ∃ t : State, execAll (List.replicate n (.read a)) s = .next t ∧ t.fault = none ∧ t.chip = .idle ∧ t.mem = s.mem ∧
      t.out = s.out ++ List.replicate n (s.mem.read (chipAddr a).toNat)

/-- 44_device_ops.md R193: the first step of WRITE, the chip Idle. (`DeviceOpsNeverContend` has the WRITE that begins with SC
high over a clear stage 0.) -/
def Obligations.WriteStartsTheWriteCycle : Prop :=
  ∀ (s : State) (a : Half) (d : Byte), s.init = true → addrRejected a s = false →
    s.lvl.sc = false ∨ s.sr.getLsbD 0 = true → s.chip = .idle → s.pollCtx = none →
    exec (.write a d) s = .next { s with
      lvl := { sd := a.getLsbD 0, sc := false, sl := false, we := true }
      sr := frame a false, q := frame a false, busDir := .output, dout := d
      ie := irqAfterPulse s.params.irqExit s.ie
      chip := .writing (chipAddr a) d
      pollCtx := some { addr := a, expect := d.getLsbD 7, reads := 0 }
      trace := s.trace ++ writeEvents s.params s.ie a d } ∧
    (writeEvents s.params s.ie a d).length = 65

/-- 44_device_ops.md R193, 42_write_pulse.md R151: WRITE finds the chip still writing, after 60 events. -/
def Obligations.WriteOnBusyChipFaults : Prop :=
  ∀ (s : State) (a : Half) (d : Byte), s.init = true → addrRejected a s = false →
    s.lvl.sc = false ∨ s.sr.getLsbD 0 = true → s.chip ≠ .idle → s.pollCtx = none →
    exec (.write a d) s = .next { s with
      lvl := { s.lvl with sd := a.getLsbD 0, sc := false, sl := false }
      sr := frame a false, q := frame a false, busDir := .output, dout := d
      trace := s.trace ++ (setaddrEvents (frame a false) ++ .busMode .output :: driveEvents d)
      fault := some (.chipBusy s.chip) } ∧
    (setaddrEvents (frame a false) ++ .busMode .output :: driveEvents d).length = 60

/-- 44_device_ops.md R195, R196: the poll iteration whose read has the expected bit 7 ends WRITE, and ends UPDATE with 1
appended. Every iteration of WRITE, and every one of UPDATE that does not end it, is POLL's. -/
def Obligations.WriteAndUpdateReturnOnEcho : Prop :=
  ∀ (s : State) (c : PollCtx) (a : Half) (b : Byte), s.init = true → s.pollCtx = some c →
    (PollReads c s c.expect →
      ∃ n, s.draws < n ∧
        let t : State := { s with
          busDir := .input, dout := Config.freeValue 8 s.draws, draws := n
          lvl := { s.lvl with sd := c.addr.getLsbD 0, sc := false, sl := false }
          sr := framed s (frame c.addr true), q := framed s (frame c.addr true)
          trace := s.trace ++ .delayPoll :: readEvents c.addr
          pollCtx := none, pc := s.pc + 1 }
        exec (.write a b) s = .next t ∧ exec (.update a b) s = .next { t with out := s.out ++ [0x01#8] }) ∧
    ∀ (a' : Half) (e : Bool), exec (.write a b) s = exec (.poll a' e) s ∧
      (PollReads c s (!c.expect) → exec (.update a b) s = exec (.poll a' e) s)

/-- 44_device_ops.md R196, R197: UPDATE whose read returns the byte (the stored one, from an Idle chip with SC low) writes
nothing and appends 0. -/
def Obligations.UpdateOfEqualByteWritesNothing : Prop :=
  ∀ (s : State) (a : Half) (b : Byte), s.init = true → addrRejected a s = false → s.pollCtx = none →
    readByte a s = b ∨
      (s.lvl.sc = false ∧ s.lvl.we = true ∧ s.chip = .idle ∧ s.mem.read (chipAddr a).toNat = b) →
    (∃ n, s.draws < n ∧ exec (.update a b) s = .next { s with
      busDir := .input, dout := Config.freeValue 8 s.draws, draws := n
      lvl := { s.lvl with sd := a.getLsbD 0, sc := false, sl := false }
      sr := framed s (frame a true), q := framed s (frame a true)
      out := s.out ++ [0x00#8]
      trace := s.trace ++ readEvents a, pc := s.pc + 1 }) ∧
    pulses (s.trace ++ readEvents a) = pulses s.trace

/-- 44_device_ops.md R196, R197: UPDATE whose read returns a byte that differs in any bit starts the write cycle after the
read; from a chip still writing, the read is 20_memory.md R55's and the write faults ChipBusy. -/
def Obligations.UpdateOfOtherByteStartsWrite : Prop :=
  ∀ (s : State) (a : Half) (b : Byte), s.init = true → addrRejected a s = false → s.pollCtx = none →
    (readByte a s ≠ b ∨
        (s.lvl.sc = false ∧ s.lvl.we = true ∧ s.chip = .idle ∧ s.mem.read (chipAddr a).toNat ≠ b) →
      ∃ n, s.draws < n ∧
        (s.chip = .idle → exec (.update a b) s = .next { s with
          lvl := { sd := a.getLsbD 0, sc := false, sl := false, we := true }
          sr := frame a false, q := frame a false, busDir := .output, dout := b, draws := n
          ie := irqAfterPulse s.params.irqExit s.ie
          chip := .writing (chipAddr a) b
          pollCtx := some { addr := a, expect := b.getLsbD 7, reads := 0 }
          trace := s.trace ++ (readEvents a ++ writeEvents s.params s.ie a b) }) ∧
        (s.chip ≠ .idle → exec (.update a b) s = .next { s with
          lvl := { s.lvl with sd := a.getLsbD 0, sc := false, sl := false }
          sr := frame a false, q := frame a false, busDir := .output, dout := b, draws := n
          trace := s.trace ++ (readEvents a ++ (setaddrEvents (frame a false) ++ .busMode .output :: driveEvents b))
          fault := some (.chipBusy s.chip) })) ∧
    ∀ (a' : ChipAddr) (d : Byte), s.lvl.sc = false ∨ s.sr.getLsbD 0 = false → s.lvl.we = true → s.chip = .writing a' d →
      readByte a s = (if chipAddr a = a' then BitVec.ofBool (!d.getLsbD 7) ++ Config.freeValue 7 (s.draws + 1)
        else Config.freeValue 8 (s.draws + 1)) ∧
      (chipAddr a = a' → d.getLsbD 7 = b.getLsbD 7 → readByte a s ≠ b)

/-- 44_device_ops.md R190, R193, R194: READ and UPDATE raise no contention, direction or precondition fault, nor does WRITE,
unless it begins with SC high over a clear stage 0: then its first SETADDR loses /OE (40_address_serializer.md R104) and the
write ends at its first check that fails. The check that R193 does not name is the model's reading (notes/assumptions/8.md). -/
def Obligations.DeviceOpsNeverContend : Prop :=
  (∀ (s t : State) (a : Half) (d : Byte), s.fault = none → ∀ f, t.fault = some f →
    (exec (.read a) s = .next t → (∃ op, f = .notInitialized op) ∨ ∃ b, f = .addressOutOfRange b) ∧
    (exec (.update a d) s = .next t ∨
        (exec (.write a d) s = .next t ∧ (s.lvl.sc = false ∨ s.sr.getLsbD 0 = true ∨ s.pollCtx ≠ none)) →
      (∃ op, f = .notInitialized op) ∨ (∃ b, f = .addressOutOfRange b) ∨ (∃ b n, f = .writeTimeout b n) ∨
        ∃ c, f = .chipBusy c)) ∧
  ∀ (s : State) (a : Half) (d : Byte), s.init = true → addrRejected a s = false → s.pollCtx = none → s.lvl.sc = true →
    s.sr.getLsbD 0 = false →
    (s.lvl.we = true → s.busDir ≠ .input → exec (.write a d) s = .next { s with
      lvl := { s.lvl with sd := a.getLsbD 0, sc := false, sl := true }
      sr := frame a true, q := frame a true
      trace := s.trace ++ (shiftEvents (frame a false) 16 ++ [.pin .sl false, .pin .sl true])
      fault := some (.busContention (frame a true) s.busDir) }) ∧
    (s.lvl.we = true → s.busDir = .input → exec (.write a d) s = .next { s with
      lvl := { s.lvl with sd := a.getLsbD 0, sc := false, sl := false }
      sr := frame a true, q := frame a true, busDir := .output
      trace := s.trace ++ (setaddrEvents (frame a false) ++ [.busMode .output])
      fault := some (.busContention (frame a true) .output) }) ∧
    (s.lvl.we = false → exec (.write a d) s = .next { s with
      lvl := { s.lvl with sd := a.getLsbD 0, sc := false, sl := false }
      sr := frame a true, q := frame a true, busDir := .output, dout := d
      trace := s.trace ++ (setaddrEvents (frame a false) ++ .busMode .output :: driveEvents d)
      fault := some (.pulsePrecondition .output false) })

/-- 30_encoding.md R95: READ is BUSIN ; SETADDR a, 1 ; RDBYTE, but for `pc`. -/
def Obligations.ReadIsItsExpansion : Prop :=
  ∀ (s : State) (a : Half), s.init = true → s.fault = none → addrRejected a s = false →
    ∃ t : State, exec (.read a) s = .next t ∧ t.fault = none ∧
      execAll [.busin, .setaddr a true, .rdbyte] s = .next { t with pc := s.pc + 3 }

/-- 30_encoding.md R95: WRITE's first step and its first poll iteration are SETADDR a, 0 ; BUSOUT ; WRBYTE d ; PULSEWE ;
POLL a, d[7] up to that poll's first iteration, but for `pc`. -/
def Obligations.WriteIsItsExpansion : Prop :=
  ∀ (s t u : State) (a : Half) (d : Byte),
    s.init = true → s.fault = none → s.pollCtx = none → addrRejected a s = false →
    exec (.write a d) s = .next t → t.fault = none → exec (.write a d) t = .next u →
    execAll [.setaddr a false, .busout, .wrbyte d, .pulsewe, .poll a (d.getLsbD 7)] s = .next { u with pc := u.pc + 4 }

/-- 20_memory.md R65: when the poll of a WRITE or of an UPDATE that writes ends without fault, the chip is Idle and the byte
is stored, so a READ of the same low 15 bits returns it. -/
def Obligations.WriteIsVisibleWhenItReturns : Prop :=
  ∀ (s t : State) (a : Half) (d : Byte), PinInv s → PollInv s → s.fault = none → s.pollCtx ≠ none →
    (s.command = some (.write a d) ∧ exec (.write a d) s = .next t) ∨
      (s.command = some (.update a d) ∧ exec (.update a d) s = .next t) →
    t.fault = none → t.pollCtx = none →
    t.chip = .idle ∧ t.mem.read (chipAddr a).toNat = d ∧
    ∀ b : Half, chipAddr b = chipAddr a → addrRejected b t = false →
      ∃ u : State, exec (.read b) t = .next u ∧ u.out = t.out ++ [d]

/-- 44_device_ops.md R195, 43_completion_poller.md R172: with the chip completing after k of its turns, the poll of a WRITE, in
BASE or with its limit above the k misses, makes exactly k + 1 more reads, and the byte is stored. -/
def Obligations.WriteReturnsAfterChipCompletes : Prop :=
  ∀ (s : State) (a : Half) (d : Byte) (c : PollCtx) (k : Nat) (rest : List Bool),
    s.params.mode = .base ∨ c.reads + k < s.params.pollLimit →
    s.fault = none → s.refused = none → s.init = true → s.lvl.sc = false → s.lvl.we = true →
    s.mem.wf = true → s.command = some (.write a d) → s.pollCtx = some c → c.addr = a → c.expect = d.getLsbD 7 →
    s.chip = .writing (chipAddr a) d → s.chipPlan = List.replicate k false ++ true :: rest →
    ∃ t : State, core.run (k + 2) s = .next t ∧ t.pc = s.pc + 1 ∧ t.fault = none ∧ t.pollCtx = none ∧ t.chip = .idle ∧
      t.mem.read (chipAddr a).toNat = d ∧ t.out = s.out ∧ t.trace.length = s.trace.length + 61 * (k + 1) ∧
      t.trace.count .delayPoll = s.trace.count .delayPoll + (k + 1)

/-- 44_device_ops.md R195, 20_memory.md R57: under CHIP_COMPLETES a WRITE in BASE whose poll is in flight returns. -/
def Obligations.WriteReturnsUnderChipCompletes : Prop :=
  ∀ (s : State) (a : Half) (d : Byte) (c : PollCtx),
    s.params.mode = .base → s.fault = none → s.refused = none → s.init = true → s.lvl.sc = false → s.lvl.we = true →
    s.mem.wf = true → s.command = some (.write a d) → s.pollCtx = some c → c.addr = a → c.expect = d.getLsbD 7 →
    s.chip = .writing (chipAddr a) d → ChipCompletes s →
    ∃ (k : Nat) (t : State), core.run k s = .next t ∧ t.pc = s.pc + 1 ∧ t.fault = none ∧ t.chip = .idle ∧
      t.mem.read (chipAddr a).toNat = d

/-- 44_device_ops.md R198: UPDATE a, x twice, in BASE or with a poll limit above k, the chip completing after k of its turns.
The first writes, with one write pulse, iff the byte is not x; the second writes nothing. -/
def Obligations.UpdateIsIdempotent : Prop :=
  ∀ (s : State) (a : Half) (x : Byte) (k : Nat) (rest : List Bool),
    s.params.mode = .base ∨ k < s.params.pollLimit → addrRejected a s = false →
    s.fault = none → s.refused = none → s.init = true → s.lvl.sc = false → s.lvl.we = true →
    s.mem.wf = true → s.pollCtx = none → s.chip = .idle → s.command = some (.update a x) →
    { s with pc := s.pc + 1 }.command = some (.update a x) → s.chipPlan = List.replicate k false ++ true :: rest →
    (s.mem.read (chipAddr a).toNat = x →
      ∃ t : State, core.run 2 s = .next t ∧ t.pc = s.pc + 2 ∧ t.fault = none ∧ t.chip = .idle ∧ t.mem = s.mem ∧
        t.out = s.out ++ [0x00#8, 0x00#8] ∧ pulses t.trace = pulses s.trace) ∧
    (s.mem.read (chipAddr a).toNat ≠ x →
      ∃ t : State, core.run (k + 4) s = .next t ∧ t.pc = s.pc + 2 ∧ t.fault = none ∧ t.chip = .idle ∧
        t.mem.read (chipAddr a).toNat = x ∧ (∀ y, y ≠ (chipAddr a).toNat → t.mem.read y = s.mem.read y) ∧
        t.out = s.out ++ [0x01#8, 0x00#8] ∧ pulses t.trace = pulses s.trace + 1)

/-! ### What every command does and leaves alone -/

/-- Every command answers a next state, from every state (60_exceptions.md R222: a fault is recorded in it, the model's form
of a fault, notes/assumptions/6.md). -/
def Obligations.EveryCommandAnswersNextState : Prop :=
  ∀ (i : Instr) (s : State), ∃ t : State, exec i s = .next t

/-- 60_exceptions.md R222: a fault keeps `pc`, the interrupt flag, /WE, the results, the chip and its bytes. -/
def Obligations.FaultEntryIsPrecise : Prop :=
  ∀ (i : Instr) (s t : State), s.fault = none → exec i s = .next t → t.fault ≠ none →
    t.pc = s.pc ∧ t.ie = s.ie ∧ t.lvl.we = s.lvl.we ∧ t.out = s.out ∧ t.chip = s.chip ∧ t.mem = s.mem ∧
    t.init = s.init ∧ t.cfg = s.cfg

/-- The frames of SETADDR, BUSIN, BUSOUT, RDBYTE, WRBYTE and PULSEWE: each changes only the fields listed, and only appends
to the trace. -/
def Obligations.PrimitiveFrames : Prop :=
  ∀ (s t : State) (a : Half) (oe : Bool) (d : Byte),
    (exec (.setaddr a oe) s = .next t →
      t = { s with lvl := { t.lvl with we := s.lvl.we }, sr := t.sr, q := t.q, trace := t.trace, fault := t.fault, pc := t.pc }
        ∧ s.trace <+: t.trace) ∧
    (exec .busin s = .next t →
      t = { s with busDir := t.busDir, dout := t.dout, draws := t.draws, trace := t.trace, fault := t.fault, pc := t.pc }
        ∧ s.trace <+: t.trace) ∧
    (exec .busout s = .next t →
      t = { s with busDir := t.busDir, trace := t.trace, fault := t.fault, pc := t.pc } ∧ s.trace <+: t.trace) ∧
    (exec .rdbyte s = .next t →
      t = { s with out := t.out, draws := t.draws, trace := t.trace, fault := t.fault, pc := t.pc }
        ∧ s.trace <+: t.trace) ∧
    (exec (.wrbyte d) s = .next t →
      t = { s with dout := t.dout, trace := t.trace, fault := t.fault, pc := t.pc } ∧ s.trace <+: t.trace) ∧
    (exec .pulsewe s = .next t →
      t = { s with
        ie := t.ie, lvl := { s.lvl with we := t.lvl.we }, chip := t.chip, trace := t.trace, fault := t.fault, pc := t.pc }
        ∧ s.trace <+: t.trace)

/-- The frames of POLL, READ, WRITE and UPDATE: POLL and READ leave the chip, /WE and the interrupt flag alone, and none of
the four writes a byte of memory. -/
def Obligations.DeviceOpFrames : Prop :=
  ∀ (s t : State) (a : Half) (e : Bool) (d : Byte),
    (exec (.poll a e) s = .next t →
      t = { s with
        busDir := t.busDir, dout := t.dout, draws := t.draws, lvl := { t.lvl with we := s.lvl.we }, sr := t.sr, q := t.q
        trace := t.trace, pollCtx := t.pollCtx, fault := t.fault, pc := t.pc } ∧ s.trace <+: t.trace) ∧
    (exec (.read a) s = .next t →
      t = { s with
        busDir := t.busDir, dout := t.dout, draws := t.draws, lvl := { t.lvl with we := s.lvl.we }, sr := t.sr, q := t.q
        out := t.out, trace := t.trace, fault := t.fault, pc := t.pc } ∧ s.trace <+: t.trace) ∧
    (exec (.write a d) s = .next t →
      t = { s with
        busDir := t.busDir, dout := t.dout, draws := t.draws, lvl := t.lvl, sr := t.sr, q := t.q, ie := t.ie, chip := t.chip
        trace := t.trace, pollCtx := t.pollCtx, fault := t.fault, pc := t.pc } ∧ s.trace <+: t.trace) ∧
    (exec (.update a d) s = .next t →
      t = { s with
        busDir := t.busDir, dout := t.dout, draws := t.draws, lvl := t.lvl, sr := t.sr, q := t.q, ie := t.ie, chip := t.chip
        out := t.out, trace := t.trace, pollCtx := t.pollCtx, fault := t.fault, pc := t.pc } ∧ s.trace <+: t.trace)

/-- 10_state.md R34, R37, 20_memory.md R56: only PULSEWE, WRITE and UPDATE start a write cycle or write the interrupt flag;
each write cycle is one `(WE, 0)` event, at the latched address and with the driven byte. -/
def Obligations.OnlyPulsesStartWriteCycles : Prop :=
  ∀ (i : Instr) (s t : State), i ≠ .init → exec i s = .next t →
    (t.chip = s.chip ∧ t.ie = s.ie ∧ pulses t.trace = pulses s.trace) ∨
    ((i = .pulsewe ∨ (∃ a d, i = .write a d) ∨ ∃ a d, i = .update a d) ∧ s.chip = .idle ∧
      t.chip = .writing (chipAddr t.q) t.dout ∧ t.fault = s.fault ∧ pulses t.trace = pulses s.trace + 1)

/-- 10_state.md R32: which commands append a result, and what UPDATE appends. -/
def Obligations.OnlyReadsAndUpdateAppendResults : Prop :=
  ∀ (i : Instr) (s t : State), exec i s = .next t →
    t.out = s.out ∨ (∃ v, t.out = s.out ++ [v] ∧ (i = .rdbyte ∨ ∃ a, i = .read a)) ∨
      (∃ v, t.out = s.out ++ [v] ∧ (v = 0x00#8 ∨ v = 0x01#8) ∧ ∃ a d, i = .update a d) ∨ (t.out = [] ∧ i = .init)

/-! ### The step -/

/-- The block step runs the decoded command: with no fault or refusal recorded and the chip not taking its turn, a step is
`exec` of it; with the chip Idle, on the state itself. -/
def Obligations.StepRunsTheDecodedCommand : Prop :=
  ∀ (s : State) (w : Word) (i : Instr), s.fault = none → s.refused = none → s.cmds[s.pc]? = some w → decode w = .ok i →
    (s.chipTurn.1 = false → step s = exec i s.chipTurn.2) ∧ (s.chip = .idle → step s = exec i s)

/-- 20_memory.md R57: when the chip takes its turn it stores the byte at the address and is Idle; every other byte, and
everything of the block, is as it was. -/
def Obligations.ChipCompletionStoresOneByte : Prop :=
  ∀ (s : State) (a : ChipAddr) (d : Byte) (rest : List Bool), s.fault = none → s.refused = none →
    s.chip = .writing a d → s.chipPlan = true :: rest → s.mem.wf = true →
    ∃ m : Memory, step s = .next { s with chip := .idle, mem := m, chipPlan := rest } ∧
      m.read a.toNat = d ∧ ∀ x, x ≠ a.toNat → m.read x = s.mem.read x

/-- 60_exceptions.md R225, 00_scope.md R15: nothing runs after a fault or a refusal, neither is cleared, and such a state is
not final; a state is final exactly at the end of the list with neither recorded and the chip Idle. That a step stops with
what is recorded, also while the chip is writing, is the model's form (notes/assumptions/6.md). -/
def Obligations.NothingRunsAfterFaultOrRefusal : Prop :=
  (∀ (s : State) (f : Fault), s.fault = some f → step s = .fault f ∧ s.isFinal = false) ∧
  (∀ (s : State) (r : Refusal), s.fault = none → s.refused = some r → step s = .refused r ∧ s.isFinal = false) ∧
  (∀ (i : Instr) (s t : State), exec i s = .next t →
    (s.fault ≠ none → t.fault ≠ none) ∧ (s.refused ≠ none → t.refused ≠ none)) ∧
  (∀ s : State, s.isFinal = true ↔
    s.pc = s.cmds.length ∧ s.fault = none ∧ s.refused = none ∧ s.chip = .idle) ∧
  ∀ (s : State) (a : ChipAddr) (d : Byte), s.chip = .writing a d → s.isFinal = false

/-- 60_exceptions.md R224: a word that spells no command is recorded, with no event and no other change (`chipTurn.2` is
`s` but for the model's own schedule and counter). -/
def Obligations.IllegalWordIsRefused : Prop :=
  ∀ (s : State) (w : Word) (e : IllegalWord), s.fault = none → s.refused = none → s.chipTurn.1 = false →
    s.cmds[s.pc]? = some w → decode w = .error e →
    step s = .next { s.chipTurn.2 with refused := some (.illegalCommand w) } ∧
    (s.chip = .idle → step s = .next { s with refused := some (.illegalCommand w) })

/-! ### Decoding -/

/-- 30_encoding.md R90, R91, R93: the word of every command decodes to it, with every operand at every value. -/
def Obligations.DecodeOfEncodeIsTheCommand : Prop :=
  ∀ i : Instr, decode (encode i) = .ok i

/-- 30_encoding.md R91, R92: a command has one word. -/
def Obligations.EveryCommandHasOneWord : Prop :=
  ∀ (w : Word) (i : Instr), decode w = .ok i → encode i = w

/-- 30_encoding.md R92: a word with a defined operation code and zero in the `z` field and every unused field matches exactly
one row of the table, and decodes to a command of that row; every other word matches none and is refused. -/
def Obligations.EveryWordMatchesOneRowOrIsRefused : Prop :=
  ∀ w : Word,
    (w.op.toNat < 0xB ∧ w.unusedZero = true →
      ∃ (r : OpRow) (i : Instr), opTable.filter (fun x => x.selects w) = [r] ∧ decode w = .ok i ∧ i.opcode = r.op) ∧
    (¬ (w.op.toNat < 0xB ∧ w.unusedZero = true) →
      opTable.filter (fun x => x.selects w) = [] ∧ ∃ e, decode w = .error e)

/-- Words of 95_test_vectors.md V1, one for each command and each kind of refusal. -/
def Obligations.SpecWordsDecode : Prop :=
  decode 0x00000000#32 = .ok .init ∧ decode 0x11801000#32 = .ok (.setaddr 0x8010#16 true) ∧
  decode 0x20000000#32 = .ok .busin ∧ decode 0x30000000#32 = .ok .busout ∧ decode 0x40000000#32 = .ok .rdbyte ∧
  decode 0x5000005A#32 = .ok (.wrbyte 0x5A#8) ∧ decode 0x60000000#32 = .ok .pulsewe ∧
  decode 0x70123400#32 = .ok (.poll 0x1234#16 false) ∧ decode 0x80FFFF00#32 = .ok (.read 0xFFFF#16) ∧
  decode 0x9012345A#32 = .ok (.write 0x1234#16 0x5A#8) ∧ decode 0xA0801055#32 = .ok (.update 0x8010#16 0x55#8) ∧
  decode 0xB0000000#32 = .error (.reservedOp 0xB0000000#32) ∧
  decode 0x12000000#32 = .error (.unusedNonzero 0x12000000#32)

/-! ### Invariants of every step -/

/-- 10_state.md R39: every step keeps /WE high, the bus free of contention, and SC and SL low. -/
def Obligations.EveryStepKeepsPinInv : Prop :=
  ∀ s t : State, PinInv s → step s = .next t → PinInv t

/-- 43_completion_poller.md R171, 20_memory.md R65: every step keeps a poll in flight at its own command, and the write it
waits for in the chip or stored. -/
def Obligations.EveryStepKeepsPollInv : Prop :=
  ∀ s t : State, s.mem.wf = true → PollInv s → step s = .next t → PollInv t

/-- 43_completion_poller.md R175: every step keeps a poll in HARDENED within its limit. -/
def Obligations.EveryStepKeepsPollBound : Prop :=
  ∀ s t : State, s.params.wellFormed = true → PollBound s → step s = .next t → PollBound t

/-- Every step keeps the chip array in the model's canonical form (notes/assumptions/2.md), which holds only addresses
0..32767 (20_memory.md R50), and the configuration valid once constructed (10_state.md R22). -/
def Obligations.EveryStepKeepsMemoryAndConfiguration : Prop :=
  ∀ s t : State, step s = .next t → (s.mem.wf = true → t.mem.wf = true) ∧ (CfgInv s → CfgInv t)

/-- The launch state meets every invariant (with the model's values for what R253 leaves open, notes/assumptions/1.md, 2.md
and 4.md). -/
def Obligations.LaunchMeetsTheInvariants : Prop :=
  PinInv State.reset ∧ PollInv State.reset ∧ PollBound State.reset ∧ State.reset.mem.wf = true ∧ CfgInv State.reset ∧
    State.reset.params.wellFormed = true
end

