-- ==== Sys2Proof/Laws/State.lean ====
section
/-! SUPPORT. For each update of the state, what each field holds after it, so that no later proof unfolds a record update. -/

namespace Sys2Proof.Machine

variable (s : State)

/-- After construction the first check passes (60_exceptions.md R221). -/
theorem ifInitialized_pass {s : State} (h : s.init = true) (i : Instr) (b : Host.Outcome State Fault Refusal) :
    ifInitialized i s b = b := by simp [ifInitialized, h]

/-- Before construction it raises NotInitialized. -/
theorem ifInitialized_fault {s : State} (h : s.init = false) (i : Instr) (b : Host.Outcome State Fault Refusal) :
    ifInitialized i s b = .next (s.raise (.notInitialized i.opcode)) := by simp [ifInitialized, h]

/-- An address that is not rejected passes the address check (30_encoding.md R82). -/
theorem ifAddressed_pass {s : State} {a : Half} (h : addrRejected a s = false) (b : Host.Outcome State Fault Refusal) :
    ifAddressed a s b = b := by simp [ifAddressed, h]

/-- A rejected one raises AddressOutOfRange. -/
theorem ifAddressed_fault {s : State} {a : Half} (h : addrRejected a s = true) (b : Host.Outcome State Fault Refusal) :
    ifAddressed a s b = .next (s.raise (.addressOutOfRange a)) := by simp [ifAddressed, h]

@[simp] theorem finish_done {α : Type} (v : α) (k : α → State → State) :
    (SubStep.done v s).finish k = .next (k v s).advance := rfl

@[simp] theorem finish_raised {α : Type} (k : α → State → State) : (SubStep.raised s : SubStep α).finish k = .next s := rfl

@[simp] theorem andThen_done {α β : Type} (v : α) (k : α → State → SubStep β) : (SubStep.done v s).andThen k = k v s := rfl

@[simp] theorem andThen_raised {α β : Type} (k : α → State → SubStep β) :
    (SubStep.raised s : SubStep α).andThen k = .raised s := rfl

@[simp] theorem draw_value (w : Nat) : (s.draw w).1 = Config.freeValue w s.draws := rfl

@[simp] theorem emit_params (e : Event) : (s.emit e).params = s.params := rfl
@[simp] theorem emit_cmds (e : Event) : (s.emit e).cmds = s.cmds := rfl
@[simp] theorem emit_pc (e : Event) : (s.emit e).pc = s.pc := rfl
@[simp] theorem emit_cfg (e : Event) : (s.emit e).cfg = s.cfg := rfl
@[simp] theorem emit_init (e : Event) : (s.emit e).init = s.init := rfl
@[simp] theorem emit_ctrlMode (e : Event) : (s.emit e).ctrlMode = s.ctrlMode := rfl
@[simp] theorem emit_lvl (e : Event) : (s.emit e).lvl = s.lvl := rfl
@[simp] theorem emit_busDir (e : Event) : (s.emit e).busDir = s.busDir := rfl
@[simp] theorem emit_dout (e : Event) : (s.emit e).dout = s.dout := rfl
@[simp] theorem emit_sr (e : Event) : (s.emit e).sr = s.sr := rfl
@[simp] theorem emit_q (e : Event) : (s.emit e).q = s.q := rfl
@[simp] theorem emit_out (e : Event) : (s.emit e).out = s.out := rfl
@[simp] theorem emit_trace (e : Event) : (s.emit e).trace = s.trace ++ [e] := rfl
@[simp] theorem emit_ie (e : Event) : (s.emit e).ie = s.ie := rfl
@[simp] theorem emit_fault (e : Event) : (s.emit e).fault = s.fault := rfl
@[simp] theorem emit_refused (e : Event) : (s.emit e).refused = s.refused := rfl
@[simp] theorem emit_pollCtx (e : Event) : (s.emit e).pollCtx = s.pollCtx := rfl
@[simp] theorem emit_chip (e : Event) : (s.emit e).chip = s.chip := rfl
@[simp] theorem emit_mem (e : Event) : (s.emit e).mem = s.mem := rfl
@[simp] theorem emit_draws (e : Event) : (s.emit e).draws = s.draws := rfl
@[simp] theorem emit_chipPlan (e : Event) : (s.emit e).chipPlan = s.chipPlan := rfl

@[simp] theorem raise_params (f : Fault) : (s.raise f).params = s.params := rfl
@[simp] theorem raise_cmds (f : Fault) : (s.raise f).cmds = s.cmds := rfl
@[simp] theorem raise_pc (f : Fault) : (s.raise f).pc = s.pc := rfl
@[simp] theorem raise_cfg (f : Fault) : (s.raise f).cfg = s.cfg := rfl
@[simp] theorem raise_init (f : Fault) : (s.raise f).init = s.init := rfl
@[simp] theorem raise_ctrlMode (f : Fault) : (s.raise f).ctrlMode = s.ctrlMode := rfl
@[simp] theorem raise_lvl (f : Fault) : (s.raise f).lvl = s.lvl := rfl
@[simp] theorem raise_busDir (f : Fault) : (s.raise f).busDir = s.busDir := rfl
@[simp] theorem raise_dout (f : Fault) : (s.raise f).dout = s.dout := rfl
@[simp] theorem raise_sr (f : Fault) : (s.raise f).sr = s.sr := rfl
@[simp] theorem raise_q (f : Fault) : (s.raise f).q = s.q := rfl
@[simp] theorem raise_out (f : Fault) : (s.raise f).out = s.out := rfl
@[simp] theorem raise_trace (f : Fault) : (s.raise f).trace = s.trace := rfl
@[simp] theorem raise_ie (f : Fault) : (s.raise f).ie = s.ie := rfl
@[simp] theorem raise_fault (f : Fault) : (s.raise f).fault = some f := rfl
@[simp] theorem raise_refused (f : Fault) : (s.raise f).refused = s.refused := rfl
@[simp] theorem raise_pollCtx (f : Fault) : (s.raise f).pollCtx = s.pollCtx := rfl
@[simp] theorem raise_chip (f : Fault) : (s.raise f).chip = s.chip := rfl
@[simp] theorem raise_mem (f : Fault) : (s.raise f).mem = s.mem := rfl
@[simp] theorem raise_draws (f : Fault) : (s.raise f).draws = s.draws := rfl
@[simp] theorem raise_chipPlan (f : Fault) : (s.raise f).chipPlan = s.chipPlan := rfl

@[simp] theorem refuse_params (r : Refusal) : (s.refuse r).params = s.params := rfl
@[simp] theorem refuse_cmds (r : Refusal) : (s.refuse r).cmds = s.cmds := rfl
@[simp] theorem refuse_pc (r : Refusal) : (s.refuse r).pc = s.pc := rfl
@[simp] theorem refuse_cfg (r : Refusal) : (s.refuse r).cfg = s.cfg := rfl
@[simp] theorem refuse_init (r : Refusal) : (s.refuse r).init = s.init := rfl
@[simp] theorem refuse_ctrlMode (r : Refusal) : (s.refuse r).ctrlMode = s.ctrlMode := rfl
@[simp] theorem refuse_lvl (r : Refusal) : (s.refuse r).lvl = s.lvl := rfl
@[simp] theorem refuse_busDir (r : Refusal) : (s.refuse r).busDir = s.busDir := rfl
@[simp] theorem refuse_dout (r : Refusal) : (s.refuse r).dout = s.dout := rfl
@[simp] theorem refuse_sr (r : Refusal) : (s.refuse r).sr = s.sr := rfl
@[simp] theorem refuse_q (r : Refusal) : (s.refuse r).q = s.q := rfl
@[simp] theorem refuse_out (r : Refusal) : (s.refuse r).out = s.out := rfl
@[simp] theorem refuse_trace (r : Refusal) : (s.refuse r).trace = s.trace := rfl
@[simp] theorem refuse_ie (r : Refusal) : (s.refuse r).ie = s.ie := rfl
@[simp] theorem refuse_fault (r : Refusal) : (s.refuse r).fault = s.fault := rfl
@[simp] theorem refuse_refused (r : Refusal) : (s.refuse r).refused = some r := rfl
@[simp] theorem refuse_pollCtx (r : Refusal) : (s.refuse r).pollCtx = s.pollCtx := rfl
@[simp] theorem refuse_chip (r : Refusal) : (s.refuse r).chip = s.chip := rfl
@[simp] theorem refuse_mem (r : Refusal) : (s.refuse r).mem = s.mem := rfl
@[simp] theorem refuse_draws (r : Refusal) : (s.refuse r).draws = s.draws := rfl
@[simp] theorem refuse_chipPlan (r : Refusal) : (s.refuse r).chipPlan = s.chipPlan := rfl

@[simp] theorem answer_params (v : Byte) : (s.answer v).params = s.params := rfl
@[simp] theorem answer_cmds (v : Byte) : (s.answer v).cmds = s.cmds := rfl
@[simp] theorem answer_pc (v : Byte) : (s.answer v).pc = s.pc := rfl
@[simp] theorem answer_cfg (v : Byte) : (s.answer v).cfg = s.cfg := rfl
@[simp] theorem answer_init (v : Byte) : (s.answer v).init = s.init := rfl
@[simp] theorem answer_ctrlMode (v : Byte) : (s.answer v).ctrlMode = s.ctrlMode := rfl
@[simp] theorem answer_lvl (v : Byte) : (s.answer v).lvl = s.lvl := rfl
@[simp] theorem answer_busDir (v : Byte) : (s.answer v).busDir = s.busDir := rfl
@[simp] theorem answer_dout (v : Byte) : (s.answer v).dout = s.dout := rfl
@[simp] theorem answer_sr (v : Byte) : (s.answer v).sr = s.sr := rfl
@[simp] theorem answer_q (v : Byte) : (s.answer v).q = s.q := rfl
@[simp] theorem answer_out (v : Byte) : (s.answer v).out = s.out ++ [v] := rfl
@[simp] theorem answer_trace (v : Byte) : (s.answer v).trace = s.trace := rfl
@[simp] theorem answer_ie (v : Byte) : (s.answer v).ie = s.ie := rfl
@[simp] theorem answer_fault (v : Byte) : (s.answer v).fault = s.fault := rfl
@[simp] theorem answer_refused (v : Byte) : (s.answer v).refused = s.refused := rfl
@[simp] theorem answer_pollCtx (v : Byte) : (s.answer v).pollCtx = s.pollCtx := rfl
@[simp] theorem answer_chip (v : Byte) : (s.answer v).chip = s.chip := rfl
@[simp] theorem answer_mem (v : Byte) : (s.answer v).mem = s.mem := rfl
@[simp] theorem answer_draws (v : Byte) : (s.answer v).draws = s.draws := rfl
@[simp] theorem answer_chipPlan (v : Byte) : (s.answer v).chipPlan = s.chipPlan := rfl

@[simp] theorem advance_params : s.advance.params = s.params := rfl
@[simp] theorem advance_cmds : s.advance.cmds = s.cmds := rfl
@[simp] theorem advance_pc : s.advance.pc = s.pc + 1 := rfl
@[simp] theorem advance_cfg : s.advance.cfg = s.cfg := rfl
@[simp] theorem advance_init : s.advance.init = s.init := rfl
@[simp] theorem advance_ctrlMode : s.advance.ctrlMode = s.ctrlMode := rfl
@[simp] theorem advance_lvl : s.advance.lvl = s.lvl := rfl
@[simp] theorem advance_busDir : s.advance.busDir = s.busDir := rfl
@[simp] theorem advance_dout : s.advance.dout = s.dout := rfl
@[simp] theorem advance_sr : s.advance.sr = s.sr := rfl
@[simp] theorem advance_q : s.advance.q = s.q := rfl
@[simp] theorem advance_out : s.advance.out = s.out := rfl
@[simp] theorem advance_trace : s.advance.trace = s.trace := rfl
@[simp] theorem advance_ie : s.advance.ie = s.ie := rfl
@[simp] theorem advance_fault : s.advance.fault = s.fault := rfl
@[simp] theorem advance_refused : s.advance.refused = s.refused := rfl
@[simp] theorem advance_pollCtx : s.advance.pollCtx = s.pollCtx := rfl
@[simp] theorem advance_chip : s.advance.chip = s.chip := rfl
@[simp] theorem advance_mem : s.advance.mem = s.mem := rfl
@[simp] theorem advance_draws : s.advance.draws = s.draws := rfl
@[simp] theorem advance_chipPlan : s.advance.chipPlan = s.chipPlan := rfl

@[simp] theorem draw_params (w : Nat) : (s.draw w).2.params = s.params := rfl
@[simp] theorem draw_cmds (w : Nat) : (s.draw w).2.cmds = s.cmds := rfl
@[simp] theorem draw_pc (w : Nat) : (s.draw w).2.pc = s.pc := rfl
@[simp] theorem draw_cfg (w : Nat) : (s.draw w).2.cfg = s.cfg := rfl
@[simp] theorem draw_init (w : Nat) : (s.draw w).2.init = s.init := rfl
@[simp] theorem draw_ctrlMode (w : Nat) : (s.draw w).2.ctrlMode = s.ctrlMode := rfl
@[simp] theorem draw_lvl (w : Nat) : (s.draw w).2.lvl = s.lvl := rfl
@[simp] theorem draw_busDir (w : Nat) : (s.draw w).2.busDir = s.busDir := rfl
@[simp] theorem draw_dout (w : Nat) : (s.draw w).2.dout = s.dout := rfl
@[simp] theorem draw_sr (w : Nat) : (s.draw w).2.sr = s.sr := rfl
@[simp] theorem draw_q (w : Nat) : (s.draw w).2.q = s.q := rfl
@[simp] theorem draw_out (w : Nat) : (s.draw w).2.out = s.out := rfl
@[simp] theorem draw_trace (w : Nat) : (s.draw w).2.trace = s.trace := rfl
@[simp] theorem draw_ie (w : Nat) : (s.draw w).2.ie = s.ie := rfl
@[simp] theorem draw_fault (w : Nat) : (s.draw w).2.fault = s.fault := rfl
@[simp] theorem draw_refused (w : Nat) : (s.draw w).2.refused = s.refused := rfl
@[simp] theorem draw_pollCtx (w : Nat) : (s.draw w).2.pollCtx = s.pollCtx := rfl
@[simp] theorem draw_chip (w : Nat) : (s.draw w).2.chip = s.chip := rfl
@[simp] theorem draw_mem (w : Nat) : (s.draw w).2.mem = s.mem := rfl
@[simp] theorem draw_draws (w : Nat) : (s.draw w).2.draws = s.draws + 1 := rfl
@[simp] theorem draw_chipPlan (w : Nat) : (s.draw w).2.chipPlan = s.chipPlan := rfl

@[simp] theorem startWrite_params : s.startWrite.params = s.params := rfl
@[simp] theorem startWrite_cmds : s.startWrite.cmds = s.cmds := rfl
@[simp] theorem startWrite_pc : s.startWrite.pc = s.pc := rfl
@[simp] theorem startWrite_cfg : s.startWrite.cfg = s.cfg := rfl
@[simp] theorem startWrite_init : s.startWrite.init = s.init := rfl
@[simp] theorem startWrite_ctrlMode : s.startWrite.ctrlMode = s.ctrlMode := rfl
@[simp] theorem startWrite_lvl : s.startWrite.lvl = s.lvl := rfl
@[simp] theorem startWrite_busDir : s.startWrite.busDir = s.busDir := rfl
@[simp] theorem startWrite_dout : s.startWrite.dout = s.dout := rfl
@[simp] theorem startWrite_sr : s.startWrite.sr = s.sr := rfl
@[simp] theorem startWrite_q : s.startWrite.q = s.q := rfl
@[simp] theorem startWrite_out : s.startWrite.out = s.out := rfl
@[simp] theorem startWrite_trace : s.startWrite.trace = s.trace := rfl
@[simp] theorem startWrite_ie : s.startWrite.ie = s.ie := rfl
@[simp] theorem startWrite_fault : s.startWrite.fault = s.fault := rfl
@[simp] theorem startWrite_refused : s.startWrite.refused = s.refused := rfl
@[simp] theorem startWrite_pollCtx : s.startWrite.pollCtx = s.pollCtx := rfl
@[simp] theorem startWrite_chip : s.startWrite.chip = .writing (chipAddr s.q) s.dout := rfl
@[simp] theorem startWrite_mem : s.startWrite.mem = s.mem := rfl
@[simp] theorem startWrite_draws : s.startWrite.draws = s.draws := rfl
@[simp] theorem startWrite_chipPlan : s.startWrite.chipPlan = s.chipPlan := rfl

@[simp] theorem drivePin_params (p : Pin) (v : Level) : (s.drivePin p v).params = s.params := rfl
@[simp] theorem drivePin_cmds (p : Pin) (v : Level) : (s.drivePin p v).cmds = s.cmds := rfl
@[simp] theorem drivePin_pc (p : Pin) (v : Level) : (s.drivePin p v).pc = s.pc := rfl
@[simp] theorem drivePin_cfg (p : Pin) (v : Level) : (s.drivePin p v).cfg = s.cfg := rfl
@[simp] theorem drivePin_init (p : Pin) (v : Level) : (s.drivePin p v).init = s.init := rfl
@[simp] theorem drivePin_ctrlMode (p : Pin) (v : Level) : (s.drivePin p v).ctrlMode = s.ctrlMode := rfl
@[simp] theorem drivePin_lvl (p : Pin) (v : Level) : (s.drivePin p v).lvl = s.lvl.set p v := rfl
@[simp] theorem drivePin_busDir (p : Pin) (v : Level) : (s.drivePin p v).busDir = s.busDir := rfl
@[simp] theorem drivePin_dout (p : Pin) (v : Level) : (s.drivePin p v).dout = s.dout := rfl
@[simp] theorem drivePin_sr (p : Pin) (v : Level) : (s.drivePin p v).sr = s.sr := rfl
@[simp] theorem drivePin_q (p : Pin) (v : Level) : (s.drivePin p v).q = s.q := rfl
@[simp] theorem drivePin_out (p : Pin) (v : Level) : (s.drivePin p v).out = s.out := rfl
@[simp] theorem drivePin_trace (p : Pin) (v : Level) : (s.drivePin p v).trace = s.trace ++ [.pin p v] := rfl
@[simp] theorem drivePin_ie (p : Pin) (v : Level) : (s.drivePin p v).ie = s.ie := rfl
@[simp] theorem drivePin_fault (p : Pin) (v : Level) : (s.drivePin p v).fault = s.fault := rfl
@[simp] theorem drivePin_refused (p : Pin) (v : Level) : (s.drivePin p v).refused = s.refused := rfl
@[simp] theorem drivePin_pollCtx (p : Pin) (v : Level) : (s.drivePin p v).pollCtx = s.pollCtx := rfl
@[simp] theorem drivePin_chip (p : Pin) (v : Level) : (s.drivePin p v).chip = s.chip := rfl
@[simp] theorem drivePin_mem (p : Pin) (v : Level) : (s.drivePin p v).mem = s.mem := rfl
@[simp] theorem drivePin_draws (p : Pin) (v : Level) : (s.drivePin p v).draws = s.draws := rfl
@[simp] theorem drivePin_chipPlan (p : Pin) (v : Level) : (s.drivePin p v).chipPlan = s.chipPlan := rfl

@[simp] theorem lineWrite_params (i : Fin 8) (l : Level) : (s.lineWrite i l).params = s.params := rfl
@[simp] theorem lineWrite_cmds (i : Fin 8) (l : Level) : (s.lineWrite i l).cmds = s.cmds := rfl
@[simp] theorem lineWrite_pc (i : Fin 8) (l : Level) : (s.lineWrite i l).pc = s.pc := rfl
@[simp] theorem lineWrite_cfg (i : Fin 8) (l : Level) : (s.lineWrite i l).cfg = s.cfg := rfl
@[simp] theorem lineWrite_init (i : Fin 8) (l : Level) : (s.lineWrite i l).init = s.init := rfl
@[simp] theorem lineWrite_ctrlMode (i : Fin 8) (l : Level) : (s.lineWrite i l).ctrlMode = s.ctrlMode := rfl
@[simp] theorem lineWrite_lvl (i : Fin 8) (l : Level) : (s.lineWrite i l).lvl = s.lvl := rfl
@[simp] theorem lineWrite_busDir (i : Fin 8) (l : Level) : (s.lineWrite i l).busDir = s.busDir := rfl
@[simp] theorem lineWrite_dout (i : Fin 8) (l : Level) : (s.lineWrite i l).dout = setLine s.dout i l := rfl
@[simp] theorem lineWrite_sr (i : Fin 8) (l : Level) : (s.lineWrite i l).sr = s.sr := rfl
@[simp] theorem lineWrite_q (i : Fin 8) (l : Level) : (s.lineWrite i l).q = s.q := rfl
@[simp] theorem lineWrite_out (i : Fin 8) (l : Level) : (s.lineWrite i l).out = s.out := rfl
@[simp] theorem lineWrite_trace (i : Fin 8) (l : Level) : (s.lineWrite i l).trace = s.trace ++ [.line i l] := rfl
@[simp] theorem lineWrite_ie (i : Fin 8) (l : Level) : (s.lineWrite i l).ie = s.ie := rfl
@[simp] theorem lineWrite_fault (i : Fin 8) (l : Level) : (s.lineWrite i l).fault = s.fault := rfl
@[simp] theorem lineWrite_refused (i : Fin 8) (l : Level) : (s.lineWrite i l).refused = s.refused := rfl
@[simp] theorem lineWrite_pollCtx (i : Fin 8) (l : Level) : (s.lineWrite i l).pollCtx = s.pollCtx := rfl
@[simp] theorem lineWrite_chip (i : Fin 8) (l : Level) : (s.lineWrite i l).chip = s.chip := rfl
@[simp] theorem lineWrite_mem (i : Fin 8) (l : Level) : (s.lineWrite i l).mem = s.mem := rfl
@[simp] theorem lineWrite_draws (i : Fin 8) (l : Level) : (s.lineWrite i l).draws = s.draws := rfl
@[simp] theorem lineWrite_chipPlan (i : Fin 8) (l : Level) : (s.lineWrite i l).chipPlan = s.chipPlan := rfl

@[simp] theorem setBusMode_params (m : PinMode) : (s.setBusMode m).params = s.params := rfl
@[simp] theorem setBusMode_cmds (m : PinMode) : (s.setBusMode m).cmds = s.cmds := rfl
@[simp] theorem setBusMode_pc (m : PinMode) : (s.setBusMode m).pc = s.pc := rfl
@[simp] theorem setBusMode_cfg (m : PinMode) : (s.setBusMode m).cfg = s.cfg := rfl
@[simp] theorem setBusMode_init (m : PinMode) : (s.setBusMode m).init = s.init := rfl
@[simp] theorem setBusMode_ctrlMode (m : PinMode) : (s.setBusMode m).ctrlMode = s.ctrlMode := rfl
@[simp] theorem setBusMode_lvl (m : PinMode) : (s.setBusMode m).lvl = s.lvl := rfl
@[simp] theorem setBusMode_busDir (m : PinMode) : (s.setBusMode m).busDir = m := rfl
@[simp] theorem setBusMode_dout (m : PinMode) : (s.setBusMode m).dout = s.dout := rfl
@[simp] theorem setBusMode_sr (m : PinMode) : (s.setBusMode m).sr = s.sr := rfl
@[simp] theorem setBusMode_q (m : PinMode) : (s.setBusMode m).q = s.q := rfl
@[simp] theorem setBusMode_out (m : PinMode) : (s.setBusMode m).out = s.out := rfl
@[simp] theorem setBusMode_trace (m : PinMode) : (s.setBusMode m).trace = s.trace ++ [.busMode m] := rfl
@[simp] theorem setBusMode_ie (m : PinMode) : (s.setBusMode m).ie = s.ie := rfl
@[simp] theorem setBusMode_fault (m : PinMode) : (s.setBusMode m).fault = s.fault := rfl
@[simp] theorem setBusMode_refused (m : PinMode) : (s.setBusMode m).refused = s.refused := rfl
@[simp] theorem setBusMode_pollCtx (m : PinMode) : (s.setBusMode m).pollCtx = s.pollCtx := rfl
@[simp] theorem setBusMode_chip (m : PinMode) : (s.setBusMode m).chip = s.chip := rfl
@[simp] theorem setBusMode_mem (m : PinMode) : (s.setBusMode m).mem = s.mem := rfl
@[simp] theorem setBusMode_draws (m : PinMode) : (s.setBusMode m).draws = s.draws := rfl
@[simp] theorem setBusMode_chipPlan (m : PinMode) : (s.setBusMode m).chipPlan = s.chipPlan := rfl

@[simp] theorem busToInput_params : s.busToInput.params = s.params := rfl
@[simp] theorem busToInput_cmds : s.busToInput.cmds = s.cmds := rfl
@[simp] theorem busToInput_pc : s.busToInput.pc = s.pc := rfl
@[simp] theorem busToInput_cfg : s.busToInput.cfg = s.cfg := rfl
@[simp] theorem busToInput_init : s.busToInput.init = s.init := rfl
@[simp] theorem busToInput_ctrlMode : s.busToInput.ctrlMode = s.ctrlMode := rfl
@[simp] theorem busToInput_lvl : s.busToInput.lvl = s.lvl := rfl
@[simp] theorem busToInput_busDir : s.busToInput.busDir = .input := rfl
@[simp] theorem busToInput_dout : s.busToInput.dout = Config.freeValue 8 s.draws := rfl
@[simp] theorem busToInput_sr : s.busToInput.sr = s.sr := rfl
@[simp] theorem busToInput_q : s.busToInput.q = s.q := rfl
@[simp] theorem busToInput_out : s.busToInput.out = s.out := rfl
@[simp] theorem busToInput_trace : s.busToInput.trace = s.trace ++ [.busMode .input] := rfl
@[simp] theorem busToInput_ie : s.busToInput.ie = s.ie := rfl
@[simp] theorem busToInput_fault : s.busToInput.fault = s.fault := rfl
@[simp] theorem busToInput_refused : s.busToInput.refused = s.refused := rfl
@[simp] theorem busToInput_pollCtx : s.busToInput.pollCtx = s.pollCtx := rfl
@[simp] theorem busToInput_chip : s.busToInput.chip = s.chip := rfl
@[simp] theorem busToInput_mem : s.busToInput.mem = s.mem := rfl
@[simp] theorem busToInput_draws : s.busToInput.draws = s.draws + 1 := rfl
@[simp] theorem busToInput_chipPlan : s.busToInput.chipPlan = s.chipPlan := rfl

@[simp] theorem irqSet_params (b : Bool) : (s.irqSet b).params = s.params := rfl
@[simp] theorem irqSet_cmds (b : Bool) : (s.irqSet b).cmds = s.cmds := rfl
@[simp] theorem irqSet_pc (b : Bool) : (s.irqSet b).pc = s.pc := rfl
@[simp] theorem irqSet_cfg (b : Bool) : (s.irqSet b).cfg = s.cfg := rfl
@[simp] theorem irqSet_init (b : Bool) : (s.irqSet b).init = s.init := rfl
@[simp] theorem irqSet_ctrlMode (b : Bool) : (s.irqSet b).ctrlMode = s.ctrlMode := rfl
@[simp] theorem irqSet_lvl (b : Bool) : (s.irqSet b).lvl = s.lvl := rfl
@[simp] theorem irqSet_busDir (b : Bool) : (s.irqSet b).busDir = s.busDir := rfl
@[simp] theorem irqSet_dout (b : Bool) : (s.irqSet b).dout = s.dout := rfl
@[simp] theorem irqSet_sr (b : Bool) : (s.irqSet b).sr = s.sr := rfl
@[simp] theorem irqSet_q (b : Bool) : (s.irqSet b).q = s.q := rfl
@[simp] theorem irqSet_out (b : Bool) : (s.irqSet b).out = s.out := rfl
@[simp] theorem irqSet_trace (b : Bool) : (s.irqSet b).trace = s.trace ++ [.irq b] := rfl
@[simp] theorem irqSet_ie (b : Bool) : (s.irqSet b).ie = b := rfl
@[simp] theorem irqSet_fault (b : Bool) : (s.irqSet b).fault = s.fault := rfl
@[simp] theorem irqSet_refused (b : Bool) : (s.irqSet b).refused = s.refused := rfl
@[simp] theorem irqSet_pollCtx (b : Bool) : (s.irqSet b).pollCtx = s.pollCtx := rfl
@[simp] theorem irqSet_chip (b : Bool) : (s.irqSet b).chip = s.chip := rfl
@[simp] theorem irqSet_mem (b : Bool) : (s.irqSet b).mem = s.mem := rfl
@[simp] theorem irqSet_draws (b : Bool) : (s.irqSet b).draws = s.draws := rfl
@[simp] theorem irqSet_chipPlan (b : Bool) : (s.irqSet b).chipPlan = s.chipPlan := rfl

end Sys2Proof.Machine
end

