-- ==== Sys2Proof/Laws/DataBus.lean ====
section
/-! SUPPORT. What the data bus does, once: the two bit maps, the byte on the lines, the transfers. -/

namespace Sys2Proof.Machine

theorem shiftOutBit_getLsbD (x : Byte) (j : Nat) : (shiftOutBit x).getLsbD j = x.getLsbD (j + 1) := by
  unfold shiftOutBit
  rw [BitVec.getLsbD_append]
  by_cases h : j < 7
  · simp [h, Nat.add_comm]
  · have : 8 ≤ j + 1 := by omega
    simp [h, BitVec.getLsbD_of_ge _ _ this]

theorem shiftInBit_getLsbD (v : Byte) (b : Level) (j : Nat) :
    (shiftInBit v b).getLsbD j = if j = 0 then b else decide (j < 8) && v.getLsbD (j - 1) := by
  unfold shiftInBit
  rw [BitVec.getLsbD_append]
  rcases j with _ | j
  · simp
  · by_cases h : j < 7
    · simp [h]; omega
    · simp [h]; omega

theorem setLine_getLsbD (d : Byte) (i : Fin 8) (l : Level) (j : Nat) (hj : j < 8) :
    (setLine d i l).getLsbD j = if j = i.val then l else d.getLsbD j := by
  by_cases h : j = i.val
  · rcases l <;> simp [setLine, h]
  · rcases l <;> simp [setLine, hj, h] <;> intros <;> omega

/-- Eight lines driven low bit first leave the byte on the lines (41_data_bus.md R128). -/
theorem driveLines_eq (d : Byte) (s : State) :
    driveLines linesUp d s = { s with dout := d, trace := s.trace ++ driveEvents d } := by
  have hd : (driveLines linesUp d s).dout = d := by
    apply BitVec.eq_of_getLsbD_eq
    intro j hj
    simp only [driveLines, linesUp, lineWrite_dout, ← BitVec.getLsbD_eq_getElem]
    repeat rw [setLine_getLsbD _ _ _ _ hj]
    simp only [shiftOutBit_getLsbD]
    interval_cases j <;> rfl
  have hs : driveLines linesUp d s = { s with
      dout := (driveLines linesUp d s).dout, trace := s.trace ++ driveEvents d } := by
    simp [driveLines, linesUp, driveEvents, State.lineWrite, State.emit, ← BitVec.getLsbD_eq_getElem, shiftOutBit_getLsbD]
  rw [hs, hd]

/-- Eight samples assemble the byte on the lines, line 7 first (41_data_bus.md R125). -/
theorem sampleLines_eq (b : Byte) (s : State) :
    sampleLines b linesDown 0x00#8 s = (b, { s with trace := s.trace ++ sampleEvents }) := by
  have hv : (sampleLines b linesDown 0x00#8 s).1 = b := by
    apply BitVec.eq_of_getLsbD_eq
    intro j hj
    simp only [sampleLines, linesDown]
    repeat rw [shiftInBit_getLsbD]
    interval_cases j <;> rfl
  have hs : (sampleLines b linesDown 0x00#8 s).2 = { s with trace := s.trace ++ sampleEvents } := by
    simp [sampleLines, linesDown, sampleEvents, State.emit]
  exact Prod.ext hv hs

/-- The read map and the write map are the same map (30_encoding.md R87). -/
theorem assembleLines_eq (b : Byte) : assembleLines b linesDown 0x00#8 = b := by
  have h : ∀ (l : List (Fin 8)) v s, assembleLines b l v = (sampleLines b l v s).1 := by
    intro l
    induction l with
    | nil => intros; rfl
    | cons i t ih => intro v s; exact ih _ _
  rw [h linesDown _ State.reset, sampleLines_eq]

/-- A byte read from the lines changes only how many free values have been taken. -/
theorem busValue_state (s : State) : ∃ n, s.draws ≤ n ∧ s.busValue.2 = { s with draws := n } := by
  unfold State.busValue State.chipDrive
  split
  · split
    · exact ⟨_, le_rfl, rfl⟩
    · split <;> exact ⟨_, Nat.le_succ _, rfl⟩
  · exact ⟨_, Nat.le_succ _, rfl⟩

/-- A byte read from the lines does not depend on the poll in flight, and keeps it. -/
theorem busValue_withPoll (s : State) (p : Option PollCtx) :
    State.busValue { s with pollCtx := p } = (s.busValue.1, { s.busValue.2 with pollCtx := p }) := by
  have hd : State.chipDrives { s with pollCtx := p } = s.chipDrives := rfl
  unfold State.busValue State.chipDrive
  rw [hd]
  split
  · cases hc : s.chip with
    | idle => simp only [hc]
    | writing a d => by_cases h : chipAddr s.q = a <;> simp [h, hc, State.draw]
  · rfl

/-- The chip Idle and driving: the lines carry the stored byte (20_memory.md R55). -/
theorem busValue_idle (s : State) (hd : s.chipDrives = true) (hc : s.chip = .idle) :
    s.busValue = (s.mem.read (chipAddr s.q).toNat, s) := by
  simp [State.busValue, State.chipDrive, hd, hc]

/-- The chip writing at the latched address: line 7 carries the complement of the written bit 7 (20_memory.md R55). -/
theorem busValue_writing (s : State) (a : ChipAddr) (d : Byte) (hd : s.chipDrives = true) (hc : s.chip = .writing a d)
    (ha : chipAddr s.q = a) : s.busValue.1[7] = !d[7] := by
  simp only [State.busValue, State.chipDrive, hd, hc, ha, if_true]
  rw [← BitVec.getLsbD_eq_getElem, BitVec.getLsbD_append]
  simp

/-- Everything `RdByteCore` can do. -/
theorem rdByteCore_eq (s : State) :
    rdByteCore s =
      if s.busDir ≠ .input then .raised { s with fault := some (.busDirection 0x4#4 s.busDir) }
      else .done s.busValue.1 { s.busValue.2 with trace := s.busValue.2.trace ++ sampleEvents } := by
  unfold rdByteCore
  split
  · rfl
  · rw [sampleLines_eq]

/-- Everything `WrByteCore` can do. -/
theorem wrByteCore_eq (d : Byte) (s : State) :
    wrByteCore d s =
      if s.busDir ≠ .output then .raised { s with fault := some (.busDirection 0x5#4 s.busDir) }
      else .done () { s with dout := d, trace := s.trace ++ driveEvents d } := by
  by_cases h : s.busDir = .output <;> simp [wrByteCore, driveLines_eq, State.raise, Instr.opcode, h]

/-- Everything the switch to output mode can do (41_data_bus.md R121). -/
theorem busToOutput_eq (s : State) :
    busToOutput s =
      if s.q[15] = false ∧ s.lvl.we = true then
        .raised { s with busDir := .output, trace := s.trace ++ [.busMode .output], fault := some (.busContention s.q .output) }
      else .done () { s with busDir := .output, trace := s.trace ++ [.busMode .output] } := by
  by_cases h : s.q[15] = true <;> by_cases h3 : s.lvl.we = true <;>
    simp [busToOutput, contentionCheck, State.contended, State.chipDrives, State.raise, State.setBusMode, State.emit, h, h3]

end Sys2Proof.Machine
end

