-- ==== Sys2Proof/Laws/Serializer.lean ====
section
/-! SUPPORT. What the shift-register chain does, once: one bit, a whole frame, the latch, and `setAddress`. -/

namespace Sys2Proof.Machine

/-- The stages after bits `n-1` down to 0 of `f` have been shifted in. -/
def stagesAfter (sr : Half) (f : Half) (n : Nat) : Half :=
  match n with
  | 0 => sr
  | n + 1 => stagesAfter (shiftStages sr (f.getLsbD n)) f n

theorem shiftStages_getLsbD (sr : Half) (b : Level) (i : Nat) :
    (shiftStages sr b).getLsbD i = if i = 0 then b else decide (i < 16) && sr.getLsbD (i - 1) := by
  unfold shiftStages
  rw [BitVec.getLsbD_append]
  rcases i with _ | i
  · simp
  · by_cases h : i < 15
    · simp [h]; omega
    · simp [h]; omega

theorem stagesAfter_getLsbD (sr f : Half) (n i : Nat) (hi : i < 16) :
    (stagesAfter sr f n).getLsbD i = if i < n then f.getLsbD i else sr.getLsbD (i - n) := by
  induction n generalizing sr with
  | zero => simp [stagesAfter]
  | succ n ih =>
    rw [stagesAfter, ih, shiftStages_getLsbD]
    rcases Nat.lt_trichotomy i n with h | h | h
    · simp [h, Nat.lt_succ_of_lt h]
    · subst h; simp
    · have h1 : ¬ i < n := by omega
      have h2 : ¬ i < n + 1 := by omega
      have h3 : i - n ≠ 0 := by omega
      have h4 : i - n < 16 := by omega
      have h5 : i - n - 1 = i - (n + 1) := by omega
      simp [h1, h2, h3, h4, h5]

/-- Sixteen shifts leave the frame in the stages, whatever they held (30_encoding.md R84). -/
theorem stagesAfter_all (sr f : Half) : stagesAfter sr f 16 = f := by
  apply BitVec.eq_of_getLsbD_eq
  intro i hi
  rw [stagesAfter_getLsbD _ _ _ _ hi, if_pos hi]

/-- Fifteen shifts leave the frame's low 15 bits under the old stage 0 (40_address_serializer.md R104). -/
theorem stagesAfter_lost (sr f : Half) : stagesAfter sr f 15 = BitVec.ofBool (sr[0]) ++ f.extractLsb' 0 15 := by
  apply BitVec.eq_of_getLsbD_eq
  intro i hi
  rw [stagesAfter_getLsbD _ _ _ _ hi, BitVec.getLsbD_append]
  by_cases h : i < 15
  · simp [h]
  · have : i = 15 := by omega
    subst this; simp [BitVec.getLsbD_eq_getElem]

/-- One bit on the wire. -/
theorem shiftBit_eq (s : State) (b : Level) :
    s.shiftBit b = { s with
      lvl := { s.lvl with sd := b, sc := false }
      sr := if s.lvl.sc then s.sr else shiftStages s.sr b
      trace := s.trace ++ bitEvents b } := by
  rcases h : s.lvl.sc <;>
    simp [State.shiftBit, State.pinWrite, State.drivePin, State.emit, State.risingEdge, Levels.get, Levels.set, bitEvents, h]

/-- Bits shifted out with SC low. -/
theorem shiftBits_eq (s : State) (f : Half) (n : Nat) (h : s.lvl.sc = false) :
    s.shiftBits f (n + 1) = { s with
      lvl := { s.lvl with sd := f.getLsbD 0, sc := false }
      sr := stagesAfter s.sr f (n + 1)
      trace := s.trace ++ shiftEvents f (n + 1) } := by
  induction n generalizing s with
  | zero => simp [State.shiftBits, shiftBit_eq, stagesAfter, shiftEvents, h]
  | succ n ih =>
    rw [State.shiftBits, ih _ (by simp [shiftBit_eq])]
    simp [shiftBit_eq, stagesAfter, shiftEvents, h]

/-- A whole frame shifted out (40_address_serializer.md R101, R103, R104). -/
theorem shiftFrame_eq (s : State) (f : Half) :
    s.shiftFrame f = { s with
      lvl := { s.lvl with sd := f.getLsbD 0, sc := false }
      sr := framed s f
      trace := s.trace ++ shiftEvents f 16 } := by
  unfold State.shiftFrame framed
  rcases h : s.lvl.sc
  · rw [shiftBits_eq s f 15 h, stagesAfter_all]; simp
  · rw [State.shiftBits, shiftBits_eq _ f 14 (by simp [shiftBit_eq])]
    rw [show 14 + 1 = 15 from rfl, stagesAfter_lost]
    simp [shiftBit_eq, h, shiftEvents]

/-- The latch pulse: the outputs become the stages, and contention with them ends the command before SL goes low
(40_address_serializer.md R102). -/
theorem latchFrame_eq (s : State) :
    latchFrame s =
      if s.busDir ≠ .input ∧ s.sr[15] = false ∧ s.lvl.we = true then
        .raised { s with
          lvl := { s.lvl with sl := true }, q := s.sr, trace := s.trace ++ [.pin .sl false, .pin .sl true]
          fault := some (.busContention s.sr s.busDir) }
      else
        .done () { s with
          lvl := { s.lvl with sl := false }, q := s.sr
          trace := s.trace ++ [.pin .sl false, .pin .sl true, .pin .sl false] } := by
  have hc : ((s.pinWrite .sl false).pinWrite .sl true) = { s with
      lvl := { s.lvl with sl := true }, q := s.sr, trace := s.trace ++ [.pin .sl false, .pin .sl true] } := by
    simp [State.pinWrite, State.drivePin, State.emit, State.risingEdge, Levels.get, Levels.set]
  unfold latchFrame
  rw [hc]
  unfold contentionCheck State.contended State.chipDrives
  by_cases h1 : s.busDir = .input <;> rcases h2 : s.sr[15] <;> rcases h3 : s.lvl.we <;>
    simp [SubStep.andThen, State.raise, State.pinWrite, State.drivePin, State.emit, Levels.get, Levels.set, *]

/-- Everything `setAddress` can do (40_address_serializer.md R100 to R105). -/
theorem setAddress_eq (a : Half) (oe : Bool) (s : State) :
    setAddress a oe s =
      let f := frame a oe
      let q := framed s f
      if s.busDir ≠ .input ∧ q[15] = false ∧ s.lvl.we = true then
        .raised { s with
          lvl := { s.lvl with sd := f.getLsbD 0, sc := false, sl := true }, sr := q, q := q
          trace := s.trace ++ (shiftEvents f 16 ++ [.pin .sl false, .pin .sl true])
          fault := some (.busContention q s.busDir) }
      else
        .done () { s with
          lvl := { s.lvl with sd := f.getLsbD 0, sc := false, sl := false }, sr := q, q := q
          trace := s.trace ++ setaddrEvents f } := by
  simp only [setAddress, latchFrame_eq, shiftFrame_eq, setaddrEvents, List.append_assoc]

end Sys2Proof.Machine
end

