-- ==== Sys2Proof/Laws/ReadPath.lean ====
section
/-! SUPPORT. What the read path does, once: it never faults and never touches the chip. -/

namespace Sys2Proof.Machine

/-- `ReadCore` always ends with a byte: its ContentionCheck and its direction check cannot fail (44_device_ops.md R190). -/
theorem readCore_eq (a : Half) (s : State) :
    readCore a s =
      .done (readByte a s)
        { (readLatched a s).busValue.2 with trace := (readLatched a s).busValue.2.trace ++ sampleEvents } := by
  have hl : setAddress a true s.busToInput = .done () (readLatched a s) := by
    simp [setAddress_eq, readLatched, framed, State.busToInput, State.draw, State.setBusMode, State.emit]
  obtain ⟨n, _, hn⟩ := busValue_state (readLatched a s)
  simp [readCore, hl, SubStep.andThen, rdByteCore_eq, readByte, readLatched]

/-- The state `ReadCore(a)` leaves, but for how many free values were taken. -/
theorem readCore_state (a : Half) (s : State) :
    ∃ n, s.draws < n ∧ readCore a s =
      .done (readByte a s) { readLatched a s with trace := s.trace ++ readEvents a, draws := n } := by
  obtain ⟨n, hl, hn⟩ := busValue_state (readLatched a s)
  refine ⟨n, hl, ?_⟩
  rw [readCore_eq, hn]
  simp [readLatched, readEvents]

/-- The byte a read returns does not depend on the poll in flight. -/
theorem readByte_withPoll (a : Half) (s : State) (p : Option PollCtx) :
    readByte a { s with pollCtx := p } = readByte a s := by
  have h := congrArg Prod.fst (busValue_withPoll (readLatched a s) p)
  exact h

/-- `ReadCore` does not depend on the poll in flight, and keeps it. -/
theorem readCore_withPoll (a : Half) (s : State) (p : Option PollCtx) :
    ∃ u, readCore a s = .done (readByte a s) u ∧ u.params = s.params ∧
      readCore a { s with pollCtx := p } = .done (readByte a s) { u with pollCtx := p } := by
  obtain ⟨n, _, hn⟩ := busValue_state (readLatched a s)
  have e : readLatched a { s with pollCtx := p } = { readLatched a s with pollCtx := p } := rfl
  refine ⟨_, readCore_eq a s, by rw [hn]; rfl, ?_⟩
  rw [readCore_eq, readByte_withPoll, e, busValue_withPoll]

/-- Where SC is low, the frame is latched whole. -/
theorem framed_low {s : State} {f : Half} (h : s.lvl.sc = false) : framed s f = f := by simp [framed, h]

/-- The low 15 bits of a latched word are the chip's address (10_state.md R31). -/
theorem chipAddr_append (b : BitVec 1) (x : ChipAddr) : chipAddr (b ++ x) = x := by
  apply BitVec.eq_of_getLsbD_eq
  intro i hi
  rw [chipAddr, BitVec.getLsbD_extractLsb', Nat.zero_add, BitVec.getLsbD_append]
  simp [hi]

/-- Bit 15 of a latched word is /OE (10_state.md R31). -/
theorem top_append (b : Bool) (x : ChipAddr) : (BitVec.ofBool b ++ x : Half)[15] = b := by
  rw [← BitVec.getLsbD_eq_getElem, BitVec.getLsbD_append]
  simp

theorem chipAddr_frame (a : Half) (oe : Bool) : chipAddr (frame a oe) = chipAddr a := chipAddr_append _ _

theorem frame_top (a : Half) (oe : Bool) : (frame a oe)[15] = !oe := top_append _ _

theorem chipAddr_framed (s : State) (a : Half) (oe : Bool) : chipAddr (framed s (frame a oe)) = chipAddr a := by
  unfold framed
  split
  · exact (chipAddr_append _ _).trans (chipAddr_frame a oe)
  · exact chipAddr_frame a oe

/-- The word latched with the outputs on is the frame unless SC was high over a set stage 0. -/
theorem framed_on {a : Half} {s : State} (h : s.lvl.sc = false ∨ s.sr[0] = false) :
    framed s (frame a true) = frame a true := by
  rcases h with h | h
  · exact framed_low h
  · by_cases hsc : s.lvl.sc = true
    · simp only [framed, hsc, if_true, h]
      exact congrArg (BitVec.ofBool false ++ ·) (chipAddr_frame a true)
    · exact framed_low (by simpa using hsc)

/-- The word latched with the outputs off is the frame unless SC was high over a clear stage 0. -/
theorem framed_off {a : Half} {s : State} (h : s.lvl.sc = false ∨ s.sr[0] = true) :
    framed s (frame a false) = frame a false := by
  rcases h with h | h
  · exact framed_low h
  · by_cases hsc : s.lvl.sc = true
    · simp only [framed, hsc, if_true, h]
      exact congrArg (BitVec.ofBool true ++ ·) (chipAddr_frame a false)
    · exact framed_low (by simpa using hsc)

/-- Over a clear stage 0 with SC high, the frame that turns the outputs off turns them on (40_address_serializer.md R104). -/
theorem framed_lost {a : Half} {s : State} (h : s.lvl.sc = true) (h0 : s.sr[0] = false) :
    framed s (frame a false) = frame a true := by
  simp only [framed, h, if_true, h0]
  exact congrArg (BitVec.ofBool false ++ ·) (chipAddr_frame a false)

/-- With SC low, /WE high and the chip Idle, `ReadCore` gives the stored byte (44_device_ops.md R191). -/
theorem readLatched_idle {a : Half} {s : State} (hsc : s.lvl.sc = false) (hwe : s.lvl.we = true) (hc : s.chip = .idle) :
    (readLatched a s).busValue = (s.mem.read (chipAddr a).toNat, readLatched a s) := by
  rw [busValue_idle]
  · simp [readLatched, chipAddr_framed]
  · have : (framed s (frame a true))[15] = false := by rw [framed_low hsc, frame_top]; rfl
    simp [State.chipDrives, readLatched, this, hwe]
  · exact hc

theorem frame_bit0 (a : Half) (oe : Bool) : (frame a oe).getLsbD 0 = a.getLsbD 0 := by
  rw [frame, BitVec.getLsbD_append]
  simp [chipAddr]

/-- The state a read of the stored byte leaves (44_device_ops.md R191). -/
def readDone (a : Half) (s : State) : State :=
  { s with
    busDir := .input, dout := Config.freeValue 8 s.draws, draws := s.draws + 1
    lvl := { s.lvl with sd := a.getLsbD 0, sc := false, sl := false }
    sr := frame a true, q := frame a true, trace := s.trace ++ readEvents a }

/-- With SC low, /WE high and the chip Idle, everything `ReadCore` does. -/
theorem readCore_idle {a : Half} {s : State} (hsc : s.lvl.sc = false) (hwe : s.lvl.we = true) (hc : s.chip = .idle) :
    readCore a s = .done (s.mem.read (chipAddr a).toNat) (readDone a s) := by
  rw [readCore_eq, readByte, readLatched_idle hsc hwe hc]
  simp [readLatched, readDone, framed_low hsc, frame_bit0, readEvents, -BitVec.getLsbD_eq_getElem]

/-- With SC low, /WE high and the chip writing at `a`, `ReadCore` sees the complement of the written bit 7. -/
theorem readLatched_writing {a : Half} {s : State} {d : Byte} (hsc : s.lvl.sc = false) (hwe : s.lvl.we = true)
    (hc : s.chip = .writing (chipAddr a) d) : (readLatched a s).busValue.1[7] = !d[7] := by
  apply busValue_writing (readLatched a s) (chipAddr a) d
  · have : (framed s (frame a true))[15] = false := by rw [framed_low hsc, frame_top]; rfl
    simp [State.chipDrives, readLatched, this, hwe]
  · exact hc
  · simp [readLatched, chipAddr_framed]

end Sys2Proof.Machine
end

