-- ==== Sys2Proof/Laws/WritePulse.lean ====
section
/-! SUPPORT. What a write pulse does, once. -/

namespace Sys2Proof.Machine

/-- The pulse: the chip starts writing the driven byte at the latched address (42_write_pulse.md R150, R156). -/
theorem pulse_eq (s : State) :
    s.pulse = { s with
      ie := irqAfterPulse s.params.irqExit s.ie
      lvl := { s.lvl with we := true }
      chip := .writing (chipAddr s.q) s.dout
      trace := s.trace ++ pulseEvents s.params s.ie } := by
  simp [State.pulse, State.irqDisable, State.irqSet, State.pinWrite, State.drivePin, State.emit, State.risingEdge,
    State.startWrite, Levels.get, Levels.set, pulseEvents]

/-- Everything `PulseCore` can do (42_write_pulse.md R150, R151). -/
theorem pulseCore_eq (s : State) :
    pulseCore s =
      if s.busDir ≠ .output ∨ s.q[15] = false then .raised { s with fault := some (.pulsePrecondition s.busDir s.q[15]) }
      else if s.chip ≠ .idle then .raised { s with fault := some (.chipBusy s.chip) }
      else .done () { s with
        ie := irqAfterPulse s.params.irqExit s.ie
        lvl := { s.lvl with we := true }
        chip := .writing (chipAddr s.q) s.dout
        trace := s.trace ++ pulseEvents s.params s.ie } := by
  unfold pulseCore
  rw [pulse_eq]
  rfl

end Sys2Proof.Machine
end

