-- ==== Sys2Proof/Laws/DeviceOps.lean ====
section
/-! SUPPORT. What a poll iteration and the first step of a write can do, once. -/

namespace Sys2Proof.Machine

/-- The state in which a poll iteration compares: one delay and one read after `s`. -/
def pollRead (c : PollCtx) (s : State) (n : Nat) : State :=
  { readLatched c.addr (s.emit .delayPoll) with
    trace := s.trace ++ .delayPoll :: readEvents c.addr, draws := n }

/-- Everything a poll iteration can do: it ends on a match, and otherwise counts its read, which in HARDENED may be the
last (43_completion_poller.md R170, R175). -/
theorem pollIteration_eq (c : PollCtx) (s : State) :
    ∃ n, s.draws < n ∧ pollIteration c s =
      if (pollByte c s)[7] = c.expect then .done true { pollRead c s n with pollCtx := none }
      else if s.params.mode = .hardened ∧ c.reads + 1 = s.params.pollLimit then
        .raised { pollRead c s n with
          pollCtx := some { c with reads := c.reads + 1 }, fault := some (.writeTimeout c.addr (c.reads + 1)) }
      else .done false { pollRead c s n with pollCtx := some { c with reads := c.reads + 1 } } := by
  obtain ⟨n, hl, hn⟩ := readCore_state c.addr (s.emit .delayPoll)
  refine ⟨n, hl, ?_⟩
  rw [pollIteration, hn, SubStep.andThen]
  simp [pollByte, pollMiss, pollRead, State.raise, readLatched]

/-- Where SC is low and /WE high, bit 7 of a poll's read is the echo the chip's contract fixes (20_memory.md R55). -/
theorem pollByte_echo {c : PollCtx} {s : State} {b : Bool} (hsc : s.lvl.sc = false) (hwe : s.lvl.we = true)
    (he : s.echo c.addr = some b) : (pollByte c s)[7] = b := by
  have hsc' : (s.emit .delayPoll).lvl.sc = false := hsc
  have hwe' : (s.emit .delayPoll).lvl.we = true := hwe
  unfold State.echo at he
  unfold pollByte readByte
  split at he
  · rename_i hc
    rw [readLatched_idle hsc' hwe' hc]
    simpa using he
  · rename_i a' d hc
    split at he
    · rename_i ha
      rw [readLatched_writing hsc' hwe' (d := d) (by rw [emit_chip, hc, ha])]
      simpa using he
    · simp at he

/-- What a poll iteration reads does not depend on the poll in flight. -/
theorem pollByte_withPoll (c : PollCtx) (s : State) (p : Option PollCtx) :
    pollByte c { s with pollCtx := p } = pollByte c s :=
  readByte_withPoll c.addr (s.emit .delayPoll) p

/-- Either reading of `PollReads` fixes the bit compared. -/
theorem pollReads_bit {c : PollCtx} {s : State} {b : Bool} (h : PollReads c s b) : (pollByte c s)[7] = b := by
  rcases h with h | ⟨hsc, hwe, he⟩
  · exact h
  · exact pollByte_echo hsc hwe he

/-- One block step of a poll: over, going on, or at its limit. -/
theorem pollStep_eq (c : PollCtx) (s : State) (last : State → State) :
    ∃ n, s.draws < n ∧ pollStep c s last =
      if (pollByte c s)[7] = c.expect then .next (last { pollRead c s n with pollCtx := none }).advance
      else if s.params.mode = .hardened ∧ c.reads + 1 = s.params.pollLimit then
        .next { pollRead c s n with
          pollCtx := some { c with reads := c.reads + 1 }, fault := some (.writeTimeout c.addr (c.reads + 1)) }
      else .next { pollRead c s n with pollCtx := some { c with reads := c.reads + 1 } } := by
  obtain ⟨n, hl, hn⟩ := pollIteration_eq c s
  refine ⟨n, hl, ?_⟩
  unfold pollStep
  rw [hn]
  by_cases h1 : (pollByte c s)[7] = c.expect
  · simp [h1]
  · by_cases h2 : s.params.mode = .hardened ∧ c.reads + 1 = s.params.pollLimit <;> simp [h1, h2]

/-- The state of a write once the address is latched, the bus is in output mode and `d` is driven. -/
def writeDriven (a : Half) (d : Byte) (s : State) : State :=
  { s with
    lvl := { s.lvl with sd := (frame a false).getLsbD 0, sc := false, sl := false }
    sr := framed s (frame a false)
    q := framed s (frame a false)
    busDir := .output
    dout := d
    trace := s.trace ++ (setaddrEvents (frame a false) ++ .busMode .output :: driveEvents d) }

/-- The state of a write after its pulse. -/
def writeStarted (a : Half) (d : Byte) (s : State) : State :=
  { writeDriven a d s with
    lvl := { sd := (frame a false).getLsbD 0, sc := false, sl := false, we := true }
    ie := irqAfterPulse s.params.irqExit s.ie
    chip := .writing (chipAddr a) d
    trace := s.trace ++ writeEvents s.params s.ie a d }

/-- Everything the first step of a write can do. Its contention and precondition checks can fail only where SC was high
and the lost bit of the frame reads 0 (40_address_serializer.md R104). -/
theorem writePulsed_eq (a : Half) (d : Byte) (s : State) :
    writePulsed a d s =
      let q := framed s (frame a false)
      if q[15] = false then
        if s.lvl.we = true then
          if s.busDir ≠ .input then
            .raised { writeDriven a d s with
              lvl := { s.lvl with sd := (frame a false).getLsbD 0, sc := false, sl := true }, busDir := s.busDir, dout := s.dout
              trace := s.trace ++ (shiftEvents (frame a false) 16 ++ [.pin .sl false, .pin .sl true])
              fault := some (.busContention q s.busDir) }
          else
            .raised { writeDriven a d s with
              dout := s.dout, trace := s.trace ++ (setaddrEvents (frame a false) ++ [.busMode .output])
              fault := some (.busContention q .output) }
        else .raised { writeDriven a d s with fault := some (.pulsePrecondition .output false) }
      else if s.chip ≠ .idle then .raised { writeDriven a d s with fault := some (.chipBusy s.chip) }
      else .done () (writeStarted a d s) := by
  have hq := chipAddr_framed s a false
  by_cases h1 : (framed s (frame a false))[15] = false <;> by_cases h2 : s.lvl.we = true <;>
    by_cases h3 : s.busDir = .input <;> by_cases h4 : s.chip = .idle <;>
      simp [writePulsed, setAddress_eq, SubStep.andThen, busToOutput_eq, wrByteCore_eq, pulseCore_eq, writeDriven,
        writeStarted, writeEvents, h1, h2, h3, h4, hq]

/-- Unless SC is high over a clear stage 0, the first step of a write starts the write cycle, or finds the chip busy after 60
events (44_device_ops.md R193). -/
theorem writePulsed_off {a : Half} {d : Byte} {s : State} (hsc : s.lvl.sc = false ∨ s.sr[0] = true) :
    writePulsed a d s =
      if s.chip ≠ .idle then .raised { writeDriven a d s with fault := some (.chipBusy s.chip) }
      else .done () (writeStarted a d s) := by
  have h : (framed s (frame a false))[15] = true := by rw [framed_off hsc, frame_top]; rfl
  simp [writePulsed_eq, h]

/-- `writePulsed_off` where SC is low. -/
theorem writePulsed_low {a : Half} {d : Byte} {s : State} (hsc : s.lvl.sc = false) :
    writePulsed a d s =
      if s.chip ≠ .idle then .raised { writeDriven a d s with fault := some (.chipBusy s.chip) }
      else .done () (writeStarted a d s) :=
  writePulsed_off (.inl hsc)

/-- A poll iteration whose read echoes the expected bit ends the poll (43_completion_poller.md R170). -/
theorem pollStep_matched {c : PollCtx} {s : State} (last : State → State) (hsc : s.lvl.sc = false)
    (hwe : s.lvl.we = true) (he : s.echo c.addr = some c.expect) :
    ∃ n, pollStep c s last = .next (last { pollRead c s n with pollCtx := none }).advance := by
  obtain ⟨n, _, hn⟩ := pollStep_eq c s last
  exact ⟨n, by rw [hn, pollByte_echo hsc hwe he, if_pos rfl]⟩

/-- One whose read echoes the other bit, the limit not reached, leaves the poll in flight. -/
theorem pollStep_missed {c : PollCtx} {s : State} (last : State → State) (hsc : s.lvl.sc = false)
    (hwe : s.lvl.we = true) (he : s.echo c.addr = some (!c.expect))
    (hl : ¬ (s.params.mode = .hardened ∧ c.reads + 1 = s.params.pollLimit)) :
    ∃ n, pollStep c s last = .next { pollRead c s n with pollCtx := some { c with reads := c.reads + 1 } } := by
  obtain ⟨n, _, hn⟩ := pollStep_eq c s last
  exact ⟨n, by rw [hn, pollByte_echo hsc hwe he, if_neg (by cases c.expect <;> simp), if_neg hl]⟩

end Sys2Proof.Machine
end

