-- ==== Sys2Proof/Laws/Encoding.lean ====
section
/-! SUPPORT. The fields of a packed word, and a word packed again from its fields (30_encoding.md R90). -/

namespace Sys2Proof

/-- Bit `i` of a packed word. -/
theorem packWord_getLsbD (op : BitVec 4) (f : Bool) (a : Half) (d : Byte) (i : Nat) :
    (packWord op f a d).getLsbD i =
      if i < 8 then d.getLsbD i
      else if i < 24 then a.getLsbD (i - 8)
      else if i = 24 then f
      else if i < 28 then false
      else op.getLsbD (i - 28) := by
  unfold packWord
  rw [BitVec.getLsbD_append, BitVec.getLsbD_append, BitVec.getLsbD_append, BitVec.getLsbD_append]
  rcases Nat.lt_or_ge i 8 with h | h
  · simp [h, show i < 28 by omega, show i < 25 by omega, show i < 24 by omega]
  rcases Nat.lt_or_ge i 24 with h1 | h1
  · simp [h1, show i < 28 by omega, show i < 25 by omega, show ¬ i < 8 by omega]
  rcases Nat.lt_or_ge i 25 with h2 | h2
  · have : i = 24 := by omega
    subst this; simp
  rcases Nat.lt_or_ge i 28 with h3 | h3
  · simp [h3, show ¬ i < 25 by omega, show ¬ i < 8 by omega, show ¬ i < 24 by omega, show i ≠ 24 by omega]
  · simp [show ¬ i < 28 by omega, show ¬ i < 8 by omega, show ¬ i < 24 by omega, show i ≠ 24 by omega]

@[simp] theorem packWord_op (op : BitVec 4) (f : Bool) (a : Half) (d : Byte) : Word.op (packWord op f a d) = op := by
  apply BitVec.eq_of_getLsbD_eq
  intro i hi
  rw [Word.op, BitVec.getLsbD_extractLsb', packWord_getLsbD]
  simp [hi, show ¬ 28 + i < 8 by omega, show ¬ 28 + i < 24 by omega, show 28 + i ≠ 24 by omega]

@[simp] theorem packWord_zField (op : BitVec 4) (f : Bool) (a : Half) (d : Byte) :
    Word.zField (packWord op f a d) = 0#3 := by
  apply BitVec.eq_of_getLsbD_eq
  intro i hi
  rw [Word.zField, BitVec.getLsbD_extractLsb', packWord_getLsbD]
  simp [show ¬ 25 + i < 8 by omega, show ¬ 25 + i < 24 by omega, show 25 + i ≠ 24 by omega, show 25 + i < 28 by omega]

@[simp] theorem packWord_flag (op : BitVec 4) (f : Bool) (a : Half) (d : Byte) :
    Word.flag (packWord op f a d) = BitVec.ofBool f := by
  apply BitVec.eq_of_getLsbD_eq
  intro i hi
  obtain rfl : i = 0 := by omega
  rw [Word.flag, BitVec.getLsbD_extractLsb', packWord_getLsbD]
  simp

@[simp] theorem packWord_addr (op : BitVec 4) (f : Bool) (a : Half) (d : Byte) : Word.addr (packWord op f a d) = a := by
  apply BitVec.eq_of_getLsbD_eq
  intro i hi
  rw [Word.addr, BitVec.getLsbD_extractLsb', packWord_getLsbD]
  simp [hi, show ¬ 8 + i < 8 by omega, show 8 + i < 24 by omega]

@[simp] theorem packWord_data (op : BitVec 4) (f : Bool) (a : Half) (d : Byte) : Word.data (packWord op f a d) = d := by
  apply BitVec.eq_of_getLsbD_eq
  intro i hi
  rw [Word.data, BitVec.getLsbD_extractLsb', packWord_getLsbD]
  simp [hi]

/-- A word with a zero `z` field is packed from its own fields. -/
theorem packWord_fields (w : Word) (hz : w.zField = 0#3) :
    packWord w.op (w.flag == 1#1) w.addr w.data = w := by
  apply BitVec.eq_of_getLsbD_eq
  intro i hi
  rw [packWord_getLsbD]
  split
  · rename_i h; rw [Word.data, BitVec.getLsbD_extractLsb']; simp [h]
  split
  · rename_i h1 h2
    rw [Word.addr, BitVec.getLsbD_extractLsb', show 8 + (i - 8) = i by omega]
    simp [show i - 8 < 16 by omega]
  split
  · rename_i h1 h2 h3
    subst h3
    have hf : w.flag = BitVec.ofBool (w.getLsbD 24) := by
      apply BitVec.eq_of_getLsbD_eq
      intro j hj
      obtain rfl : j = 0 := by omega
      rw [Word.flag, BitVec.getLsbD_extractLsb']
      simp
    rw [hf]
    rcases w.getLsbD 24 <;> rfl
  split
  · rename_i h1 h2 h3 h4
    have hb : w.zField.getLsbD (i - 25) = false := by rw [hz]; simp
    rw [Word.zField, BitVec.getLsbD_extractLsb', show 25 + (i - 25) = i by omega] at hb
    simpa [show i - 25 < 3 by omega] using hb.symm
  · rename_i h1 h2 h3 h4
    rw [Word.op, BitVec.getLsbD_extractLsb', show 28 + (i - 28) = i by omega]
    simp [show i - 28 < 4 by omega]

/-- A word is its five fields. -/
theorem word_fields (w : Word) : w = w.op ++ (w.zField ++ (w.flag ++ (w.addr ++ w.data))) := by
  apply BitVec.eq_of_getLsbD_eq
  intro i hi
  simp only [BitVec.getLsbD_append, Word.op, Word.zField, Word.flag, Word.addr, Word.data, BitVec.getLsbD_extractLsb']
  rcases Nat.lt_or_ge i 8 with h | h
  · simp [h, show i < 28 by omega, show i < 25 by omega, show i < 24 by omega]
  rcases Nat.lt_or_ge i 24 with h1 | h1
  · simp [h1, show i < 28 by omega, show i < 25 by omega, show ¬ i < 8 by omega, show i - 8 < 16 by omega,
      show 8 + (i - 8) = i by omega]
  rcases Nat.lt_or_ge i 25 with h2 | h2
  · have : i = 24 := by omega
    subst this; simp
  rcases Nat.lt_or_ge i 28 with h3 | h3
  · simp [h3, show ¬ i < 25 by omega, show i - 25 < 3 by omega, show 25 + (i - 25) = i by omega]
  · simp [show ¬ i < 28 by omega, show i - 28 < 4 by omega, show 28 + (i - 28) = i by omega]

/-- Words joined from fields of the same widths are equal only field by field. -/
theorem append_inj {n m : Nat} {x x' : BitVec n} {y y' : BitVec m} (h : x ++ y = x' ++ y') : x = x' ∧ y = y' := by
  constructor
  · apply BitVec.eq_of_getLsbD_eq
    intro i hi
    have := congrArg (fun v => v.getLsbD (m + i)) h
    simpa [BitVec.getLsbD_append] using this
  · apply BitVec.eq_of_getLsbD_eq
    intro i hi
    have := congrArg (fun v => v.getLsbD i) h
    simpa [BitVec.getLsbD_append, hi] using this

/-- Selecting a row whose mask and pattern are given by fields is a test of each field. -/
theorem and_fields_eq (w : Word) (mo po : BitVec 4) (mz pz : BitVec 3) (mf pf : BitVec 1) (ma pa : Half) (md pd : Byte) :
    (w &&& (mo ++ (mz ++ (mf ++ (ma ++ md)))) = po ++ (pz ++ (pf ++ (pa ++ pd)))) ↔
      w.op &&& mo = po ∧ w.zField &&& mz = pz ∧ w.flag &&& mf = pf ∧ w.addr &&& ma = pa ∧ w.data &&& md = pd := by
  conv => lhs; rw [word_fields w]
  rw [BitVec.and_append, BitVec.and_append, BitVec.and_append, BitVec.and_append]
  constructor
  · intro h
    obtain ⟨h1, h⟩ := append_inj h
    obtain ⟨h2, h⟩ := append_inj h
    obtain ⟨h3, h⟩ := append_inj h
    obtain ⟨h4, h5⟩ := append_inj h
    exact ⟨h1, h2, h3, h4, h5⟩
  · rintro ⟨h1, h2, h3, h4, h5⟩
    rw [h1, h2, h3, h4, h5]

/-- A word selects a row of the table iff it has the row's operation code and every unused field is zero. -/
theorem opTable_selects (w : Word) : ∀ r ∈ opTable, r.selects w = (w.op == r.op && w.unusedZero) := by
  have a4 (x : BitVec 4) : x &&& 0xF#4 = x := BitVec.and_allOnes
  have a3 (x : BitVec 3) : x &&& 0x7#3 = x := BitVec.and_allOnes
  have a1 (x : BitVec 1) : x &&& 0x1#1 = x := BitVec.and_allOnes
  have a16 (x : BitVec 16) : x &&& 0xFFFF#16 = x := BitVec.and_allOnes
  have a8 (x : BitVec 8) : x &&& 0xFF#8 = x := BitVec.and_allOnes
  have key : ∀ (op : BitVec 4) (uf ua ud : Bool) (r : OpRow),
      r.op = op → uf = usesFlag op → ua = usesAddr op → ud = usesData op →
      r.mask = 0xF#4 ++ (0x7#3 ++ ((if uf then 0#1 else 1#1) ++
        ((if ua then 0#16 else 0xFFFF#16) ++ (if ud then 0#8 else 0xFF#8)))) →
      r.pattern = op ++ (0#3 ++ (0#1 ++ (0#16 ++ 0#8))) →
      r.selects w = (w.op == r.op && w.unusedZero) := by
    rintro op uf ua ud r rfl rfl rfl rfl hm hp
    rw [Bool.eq_iff_iff, OpRow.selects, hm, hp, beq_iff_eq, and_fields_eq, Bool.and_eq_true, beq_iff_eq]
    rw [a4, a3]
    constructor
    · rintro ⟨h1, h2, h3, h4, h5⟩
      rw [← h1] at h3 h4 h5
      refine ⟨h1, ?_⟩
      simp only [Word.unusedZero, h2]
      generalize usesFlag w.op = uf at *
      generalize usesAddr w.op = ua at *
      generalize usesData w.op = ud at *
      cases uf <;> cases ua <;> cases ud <;> simp_all
    · rintro ⟨h1, h2⟩
      rw [← h1]
      simp only [Word.unusedZero] at h2
      generalize usesFlag w.op = uf at *
      generalize usesAddr w.op = ua at *
      generalize usesData w.op = ud at *
      cases uf <;> cases ua <;> cases ud <;> simp_all
  intro r hr
  simp only [opTable, List.mem_cons, List.not_mem_nil, or_false] at hr
  rcases hr with rfl | rfl | rfl | rfl | rfl | rfl | rfl | rfl | rfl | rfl | rfl <;>
    exact key _ _ _ _ _ rfl rfl rfl rfl (by decide) (by decide)

end Sys2Proof
end

