-- ==== Sys2Proof/Laws/Events.lean ====
section
/-! SUPPORT. Counts and lengths of the event sequences (70_reset_and_hazards.md R276): only a pulse has a `(WE, 0)` event,
only a poll iteration a `(DELAY_POLL)` event. -/

namespace Sys2Proof.Machine

@[simp] theorem pulses_append (t u : List Event) : pulses (t ++ u) = pulses t + pulses u := List.count_append

theorem shiftEvents_length (f : Half) (n : Nat) : (shiftEvents f n).length = 3 * n := by
  induction n with
  | zero => rfl
  | succ n ih => simp [shiftEvents, bitEvents, ih]; omega

/-- Every event of a shift is a write of SD or SC. -/
theorem mem_shiftEvents {f : Half} {n : Nat} {e : Event} (h : e ∈ shiftEvents f n) :
    ∃ l, e = .pin .sd l ∨ e = .pin .sc l := by
  induction n with
  | zero => simp [shiftEvents] at h
  | succ n ih =>
    simp only [shiftEvents, bitEvents, List.cons_append, List.nil_append, List.mem_cons] at h
    rcases h with rfl | rfl | rfl | h
    · exact ⟨_, .inl rfl⟩
    · exact ⟨_, .inr rfl⟩
    · exact ⟨_, .inr rfl⟩
    · exact ih h

/-- Every event of a SETADDR is a write of SD, SC or SL. -/
theorem mem_setaddrEvents {f : Half} {e : Event} (h : e ∈ setaddrEvents f) :
    ∃ l, e = .pin .sd l ∨ e = .pin .sc l ∨ e = .pin .sl l := by
  simp only [setaddrEvents, List.mem_append, List.mem_cons, List.not_mem_nil, or_false] at h
  rcases h with h | rfl | rfl | rfl
  · obtain ⟨l, h | h⟩ := mem_shiftEvents h
    · exact ⟨l, .inl h⟩
    · exact ⟨l, .inr (.inl h)⟩
  all_goals exact ⟨_, .inr (.inr rfl)⟩

@[simp] theorem setaddrEvents_length (f : Half) : (setaddrEvents f).length = 51 := by
  simp [setaddrEvents, shiftEvents_length]

@[simp] theorem readEvents_length (a : Half) : (readEvents a).length = 60 := by
  simp [readEvents, sampleEvents, linesDown]

@[simp] theorem pulses_shiftEvents (f : Half) (n : Nat) : pulses (shiftEvents f n) = 0 :=
  List.count_eq_zero.mpr fun h => by obtain ⟨l, h | h⟩ := mem_shiftEvents h <;> cases h

@[simp] theorem pulses_setaddrEvents (f : Half) : pulses (setaddrEvents f) = 0 :=
  List.count_eq_zero.mpr fun h => by obtain ⟨l, h | h | h⟩ := mem_setaddrEvents h <;> cases h

@[simp] theorem pulses_sampleEvents : pulses sampleEvents = 0 := rfl

@[simp] theorem pulses_driveEvents (d : Byte) : pulses (driveEvents d) = 0 := rfl

@[simp] theorem pulses_pulseEvents (p : Params) (ie : Bool) : pulses (pulseEvents p ie) = 1 := rfl

@[simp] theorem pulses_readEvents (a : Half) : pulses (readEvents a) = 0 := by
  show pulses ([.busMode .input] ++ (setaddrEvents (frame a true) ++ sampleEvents)) = 0
  simp [pulses]
  exact ⟨pulses_setaddrEvents _, pulses_sampleEvents⟩

@[simp] theorem pulses_writeEvents (p : Params) (ie : Bool) (a : Half) (d : Byte) : pulses (writeEvents p ie a d) = 1 := by
  show pulses (setaddrEvents (frame a false) ++ ([.busMode .output] ++ (driveEvents d ++ pulseEvents p ie))) = 1
  simp only [pulses_append, pulses_setaddrEvents, pulses_driveEvents, pulses_pulseEvents]
  rfl

/-- A SETADDR, and whatever contains one, leaves the serial lines used. -/
theorem setaddrEvents_used (f : Half) : (Event.pin .sl false) ∈ setaddrEvents f := by simp [setaddrEvents]

theorem readEvents_used (a : Half) : (Event.pin .sl false) ∈ readEvents a := by
  simp [readEvents, setaddrEvents_used]

theorem writeEvents_used (p : Params) (ie : Bool) (a : Half) (d : Byte) :
    (Event.pin .sl false) ∈ writeEvents p ie a d := by simp [writeEvents, setaddrEvents_used]

/-- One delay for each poll iteration (43_completion_poller.md R172). -/
theorem delays_readEvents (a : Half) : (readEvents a).count .delayPoll = 0 := by
  refine List.count_eq_zero.mpr fun h => ?_
  simp only [readEvents, List.mem_cons, List.mem_append] at h
  rcases h with h | h | h
  · cases h
  · obtain ⟨l, h | h | h⟩ := mem_setaddrEvents h <;> cases h
  · simp [sampleEvents, linesDown] at h

/-- Whether a SETADDR is in a trace that has grown. -/
theorem serialUsed_append {s t : State} {l : List Event} (h : t.trace = s.trace ++ l) :
    t.serialUsed = (s.serialUsed || l.any Event.latches) := by
  simp [State.serialUsed, h]

/-- Whether a SETADDR or BUSOUT is in a trace that has grown. -/
theorem busUsed_append {s t : State} {l : List Event} (h : t.trace = s.trace ++ l) :
    t.busUsed = (s.busUsed || l.any Event.latches || l.any Event.turnsOut) := by
  simp only [State.busUsed, h, List.any_append]
  cases s.trace.any Event.latches <;> cases l.any Event.latches <;> cases s.trace.any Event.turnsOut <;> rfl

end Sys2Proof.Machine
end

