-- ==== Sys2Proof/Laws/Exec.lean ====
section
/-! SUPPORT. The inversion of `exec`: every next state a command can answer, said once. Invariants of a step and frames of
commands are case analyses over `Effect`, and need not unfold `exec`. -/

namespace Sys2Proof.Machine

/-- The state of a SETADDR whose latch has changed, before SL goes low again. -/
def latchedState (a : Half) (oe : Bool) (s : State) : State :=
  { s with
    lvl := { s.lvl with sd := (frame a oe).getLsbD 0, sc := false, sl := true }
    sr := framed s (frame a oe), q := framed s (frame a oe)
    trace := s.trace ++ (shiftEvents (frame a oe) 16 ++ [.pin .sl false, .pin .sl true]) }

/-- The state of a SETADDR with no fault, before `pc` advances. -/
def addressedState (a : Half) (oe : Bool) (s : State) : State :=
  { s with
    lvl := { s.lvl with sd := (frame a oe).getLsbD 0, sc := false, sl := false }
    sr := framed s (frame a oe), q := framed s (frame a oe)
    trace := s.trace ++ setaddrEvents (frame a oe) }

/-- The state of a read, before its byte is used. -/
def readState (a : Half) (n : Nat) (s : State) : State :=
  { readLatched a s with trace := s.trace ++ readEvents a, draws := n }

/-- What the first step of a write can leave (`writePulsed_eq`, without the events of its fault cases). -/
inductive WriteEffect (a : Half) (d : Byte) (s : State) : State → Prop where
  /-- SC was high, the lost bit reads 0: contention at the latch. -/
  | latchContended (h : s.busDir ≠ .input) (h15 : (framed s (frame a false))[15] = false) (hw : s.lvl.we = true) :
      WriteEffect a d s ((latchedState a false s).raise (.busContention (framed s (frame a false)) s.busDir))
  /-- The same, found when the bus turns to output. -/
  | busContended (h15 : (framed s (frame a false))[15] = false) (hw : s.lvl.we = true) :
      WriteEffect a d s
        ({ addressedState a false s with
            busDir := .output
            trace := s.trace ++ (setaddrEvents (frame a false) ++ [Event.busMode .output]) }.raise
          (.busContention (framed s (frame a false)) .output))
  /-- The same with /WE low: no contention, but the pulse's precondition fails. -/
  | notDriven (h15 : (framed s (frame a false))[15] = false) (hw : s.lvl.we = false) :
      WriteEffect a d s ((writeDriven a d s).raise (.pulsePrecondition .output false))
  /-- The chip is still writing. -/
  | busy (h15 : (framed s (frame a false))[15] = true) (hc : s.chip ≠ .idle) :
      WriteEffect a d s ((writeDriven a d s).raise (.chipBusy s.chip))
  /-- The write cycle has started and the poll begins. -/
  | started (h15 : (framed s (frame a false))[15] = true) (hc : s.chip = .idle) :
      WriteEffect a d s { writeStarted a d s with pollCtx := some { addr := a, expect := d[7], reads := 0 } }

theorem writeBegin_effect {a : Half} {d : Byte} {s t : State} (h : writeBegin a d s = .next t) : WriteEffect a d s t := by
  unfold writeBegin at h
  rw [writePulsed_eq] at h
  simp only [] at h
  split at h
  · rename_i t' ht
    split at ht
    · split at ht
      · split at ht <;> cases ht
      · cases ht
    · rename_i h1
      split at ht
      · cases ht
      · rename_i h2
        cases ht; cases h
        exact .started (by simpa using h1) (by simpa using h2)
  · rename_i t' ht
    cases h
    split at ht
    · rename_i h1
      split at ht
      · rename_i h2
        split at ht
        · rename_i h3; cases ht; exact .latchContended h3 h1 h2
        · cases ht; exact .busContended h1 h2
      · rename_i h2; cases ht; exact .notDriven h1 (by simpa using h2)
    · rename_i h1
      split at ht
      · rename_i h2; cases ht; exact .busy (by simpa using h1) h2
      · cases ht

/-- What one poll iteration of `c` can leave, `last` being what its command does when the poll is over. -/
inductive PollEffect (c : PollCtx) (last : State → State) (s : State) : State → Prop where
  | matched (n : Nat) (h : (pollByte c s)[7] = c.expect) :
      PollEffect c last s (last { pollRead c s n with pollCtx := none }).advance
  | timeout (n : Nat) (h : (pollByte c s)[7] ≠ c.expect) (hm : s.params.mode = .hardened)
      (hl : c.reads + 1 = s.params.pollLimit) :
      PollEffect c last s
        ({ pollRead c s n with pollCtx := some { c with reads := c.reads + 1 } }.raise
          (.writeTimeout c.addr (c.reads + 1)))
  | missed (n : Nat) (h : (pollByte c s)[7] ≠ c.expect)
      (hl : ¬ (s.params.mode = .hardened ∧ c.reads + 1 = s.params.pollLimit)) :
      PollEffect c last s { pollRead c s n with pollCtx := some { c with reads := c.reads + 1 } }

theorem pollStep_effect {c : PollCtx} {last : State → State} {s t : State} (h : pollStep c s last = .next t) :
    PollEffect c last s t := by
  obtain ⟨n, _, hn⟩ := pollStep_eq c s last
  rw [hn] at h
  split at h
  · rename_i h1; cases h; exact .matched n h1
  · rename_i h1
    split at h
    · rename_i h2; cases h; exact .timeout n h1 h2.1 h2.2
    · rename_i h2; cases h; exact .missed n h1 h2

/-- Every next state of a command. -/
inductive Effect : Instr → State → State → Prop where
  /-- A fault raised before any event or other change. -/
  | early {i : Instr} {s : State} (f : Fault) : Effect i s (s.raise f)
  | constructed {s : State} (h : s.init = false) (hv : s.params.pins.valid = true) : Effect .init s s.construct.advance
  | addressed {a : Half} {oe : Bool} {s : State} (h : s.init = true)
      (hc : ¬ (s.busDir ≠ .input ∧ (framed s (frame a oe))[15] = false ∧ s.lvl.we = true)) :
      Effect (.setaddr a oe) s (addressedState a oe s).advance
  | addressContended {a : Half} {oe : Bool} {s : State} (h : s.init = true) :
      Effect (.setaddr a oe) s ((latchedState a oe s).raise (.busContention (framed s (frame a oe)) s.busDir))
  | busIn {s : State} (h : s.init = true) : Effect .busin s s.busToInput.advance
  | busOut {s : State} (h : s.init = true) (hc : ¬ (s.q[15] = false ∧ s.lvl.we = true)) :
      Effect .busout s (s.setBusMode .output).advance
  | busOutContended {s : State} (h : s.init = true) :
      Effect .busout s ((s.setBusMode .output).raise (.busContention s.q .output))
  | byteRead {s : State} (h : s.init = true) (n : Nat) :
      Effect .rdbyte s { s with
        draws := n, trace := s.trace ++ sampleEvents, out := s.out ++ [s.busValue.1], pc := s.pc + 1 }
  | byteDriven {d : Byte} {s : State} (h : s.init = true) (hb : s.busDir = .output) :
      Effect (.wrbyte d) s { s with dout := d, trace := s.trace ++ driveEvents d, pc := s.pc + 1 }
  | pulsed {s : State} (h : s.init = true) (hb : s.busDir = .output) (hq : s.q[15] = true) (hc : s.chip = .idle) :
      Effect .pulsewe s s.pulse.advance
  | read {a : Half} {s : State} (h : s.init = true) (n : Nat) :
      Effect (.read a) s ((readState a n s).answer (readByte a s)).advance
  | pollBegun {a : Half} {e : Bool} {s t : State} (h : s.init = true) (hp : s.pollCtx = none)
      (hs : PollEffect { addr := a, expect := e, reads := 0 } (fun s' => s')
        { s with pollCtx := some { addr := a, expect := e, reads := 0 } } t) : Effect (.poll a e) s t
  | polled {a : Half} {e : Bool} {c : PollCtx} {s t : State} (h : s.init = true) (hp : s.pollCtx = some c)
      (hs : PollEffect c (fun s' => s') s t) : Effect (.poll a e) s t
  | writeBegun {a : Half} {d : Byte} {s t : State} (h : s.init = true) (hp : s.pollCtx = none)
      (hs : WriteEffect a d s t) : Effect (.write a d) s t
  | writePolled {a : Half} {d : Byte} {c : PollCtx} {s t : State} (h : s.init = true) (hp : s.pollCtx = some c)
      (hs : PollEffect c (fun s' => s') s t) : Effect (.write a d) s t
  | updateEqual {a : Half} {d : Byte} {s : State} (h : s.init = true) (hp : s.pollCtx = none) (n : Nat) :
      Effect (.update a d) s ((readState a n s).answer 0x00#8).advance
  | updateBegun {a : Half} {d : Byte} {s t : State} (h : s.init = true) (hp : s.pollCtx = none) (n : Nat)
      (hs : WriteEffect a d (readState a n s) t) : Effect (.update a d) s t
  | updatePolled {a : Half} {d : Byte} {c : PollCtx} {s t : State} (h : s.init = true) (hp : s.pollCtx = some c)
      (hs : PollEffect c (fun s' => s'.answer 0x01#8) s t) : Effect (.update a d) s t

/-- Behind the first check: a fault before any event, or the body. -/
theorem ifInitialized_effect {i : Instr} {s t : State} {b : Host.Outcome State Fault Refusal}
    (h : ifInitialized i s b = .next t) (hb : s.init = true → b = .next t → Effect i s t) : Effect i s t := by
  by_cases hi : s.init = true
  · rw [ifInitialized_pass hi] at h; exact hb hi h
  · rw [ifInitialized_fault (by simpa using hi)] at h; cases h; exact .early _

theorem ifAddressed_effect {i : Instr} {a : Half} {s t : State} {b : Host.Outcome State Fault Refusal}
    (h : ifAddressed a s b = .next t) (hb : b = .next t → Effect i s t) : Effect i s t := by
  by_cases ha : addrRejected a s = true
  · rw [ifAddressed_fault ha] at h; cases h; exact .early _
  · rw [ifAddressed_pass (by simpa using ha)] at h; exact hb h

theorem updateBegin_effect {a : Half} {d : Byte} {s t : State} (hi : s.init = true) (hp : s.pollCtx = none)
    (h : updateBegin a d s = .next t) : Effect (.update a d) s t := by
  obtain ⟨n, _, hn⟩ := readCore_state a s
  rw [updateBegin, hn] at h
  simp only [] at h
  split at h
  · cases h; exact .updateEqual hi hp n
  · exact .updateBegun hi hp n (writeBegin_effect h)

/-- The inversion of `exec`. -/
theorem exec_effect {i : Instr} {s t : State} (h : exec i s = .next t) : Effect i s t := by
  cases i with
  | init =>
    change execInit s = .next t at h
    unfold execInit at h
    split at h
    · cases h; exact .early _
    · rename_i h1
      split at h
      · rename_i h2; cases h; exact .constructed (by simpa using h1) h2
      · cases h; exact .early _
  | setaddr a oe =>
    refine ifInitialized_effect h fun hi h => ifAddressed_effect h fun h => ?_
    rw [setAddress_eq] at h
    simp only [] at h
    split at h
    · cases h; exact .addressContended hi
    · rename_i hc; cases h; exact .addressed hi hc
  | busin => exact ifInitialized_effect h fun hi h => by cases h; exact .busIn hi
  | busout =>
    refine ifInitialized_effect h fun hi h => ?_
    rw [busToOutput_eq] at h
    split at h
    · cases h; exact .busOutContended hi
    · rename_i hc; cases h; exact .busOut hi hc
  | rdbyte =>
    refine ifInitialized_effect h fun hi h => ?_
    obtain ⟨n, _, hn⟩ := busValue_state s
    rw [rdByteCore_eq, hn] at h
    split at h
    · cases h; exact .early _
    · cases h; exact .byteRead hi n
  | wrbyte d =>
    refine ifInitialized_effect h fun hi h => ?_
    rw [wrByteCore_eq] at h
    split at h
    · cases h; exact .early _
    · rename_i hb; cases h; exact .byteDriven hi (by simpa using hb)
  | pulsewe =>
    refine ifInitialized_effect h fun hi h => ?_
    unfold pulseCore at h
    split at h
    · cases h; exact .early _
    · rename_i hb
      split at h
      · cases h; exact .early _
      · rename_i hc
        cases h
        simp only [not_or, Decidable.not_not, Bool.not_eq_false] at hb hc
        exact .pulsed hi hb.1 hb.2 hc
  | poll a e =>
    refine ifInitialized_effect h fun hi h => ?_
    split at h
    · rename_i c hc; exact .polled hi hc (pollStep_effect h)
    · rename_i hc; exact ifAddressed_effect h fun h => .pollBegun hi hc (pollStep_effect h)
  | read a =>
    refine ifInitialized_effect h fun hi h => ifAddressed_effect h fun h => ?_
    obtain ⟨n, _, hn⟩ := readCore_state a s
    rw [hn] at h
    cases h
    exact .read hi n
  | write a d =>
    refine ifInitialized_effect h fun hi h => ?_
    split at h
    · rename_i c hc; exact .writePolled hi hc (pollStep_effect h)
    · rename_i hc; exact ifAddressed_effect h fun h => .writeBegun hi hc (writeBegin_effect h)
  | update a d =>
    refine ifInitialized_effect h fun hi h => ?_
    split at h
    · rename_i c hc; exact .updatePolled hi hc (pollStep_effect h)
    · rename_i hc; exact ifAddressed_effect h fun h => updateBegin_effect hi hc h

/-! ### Frames of the two effects -/

/-- What a poll iteration leaves alone: everything but the bus, the serial lines, the events and the poll itself. -/
theorem pollEffect_frame {c : PollCtx} {last : State → State} {s t : State}
    (hl : ∀ x : State, last x = { x with out := (last x).out }) (h : PollEffect c last s t) :
    t = { s with
      busDir := .input, dout := t.dout, draws := t.draws, lvl := { t.lvl with we := s.lvl.we }, sr := t.sr, q := t.q
      trace := s.trace ++ .delayPoll :: readEvents c.addr, out := t.out, pollCtx := t.pollCtx, fault := t.fault
      pc := t.pc } := by
  cases h with
  | matched n h => rw [hl]; rfl
  | timeout n h hm hl => rfl
  | missed n h hl => rfl

/-- A poll that goes on, or is stopped at its limit, appends no result and does not advance `pc`. -/
theorem pollEffect_cases {c : PollCtx} {last : State → State} {s t : State} (h : PollEffect c last s t) :
    (∃ n, (pollByte c s)[7] = c.expect ∧ t = (last { pollRead c s n with pollCtx := none }).advance) ∨
      (t.pc = s.pc ∧ t.out = s.out ∧ t.pollCtx = some { c with reads := c.reads + 1 } ∧
        (t.fault = s.fault ∨ t.fault = some (.writeTimeout c.addr (c.reads + 1)))) := by
  cases h with
  | matched n h => exact .inl ⟨n, h, rfl⟩
  | timeout n h hm hl => exact .inr ⟨rfl, rfl, rfl, .inr rfl⟩
  | missed n h hl => exact .inr ⟨rfl, rfl, rfl, .inl rfl⟩

/-- What the first step of a write leaves alone, whatever it does. -/
theorem writeEffect_frame {a : Half} {d : Byte} {s t : State} (h : WriteEffect a d s t) :
    t = { s with
      lvl := t.lvl, sr := t.sr, q := t.q, busDir := t.busDir, dout := t.dout, ie := t.ie, chip := t.chip
      pollCtx := t.pollCtx, trace := t.trace, fault := t.fault } ∧ s.trace <+: t.trace := by
  cases h with
  | latchContended h h15 hw => exact ⟨rfl, List.prefix_append _ _⟩
  | busContended h15 hw => exact ⟨rfl, List.prefix_append _ _⟩
  | notDriven h15 hw => exact ⟨rfl, List.prefix_append _ _⟩
  | busy h15 hc => exact ⟨rfl, List.prefix_append _ _⟩
  | started h15 hc => exact ⟨rfl, List.prefix_append _ _⟩

/-- The first step of a write either records a fault and leaves /WE, the interrupt flag, the chip and any poll as they
were, or starts the write cycle and the poll. -/
theorem writeEffect_cases {a : Half} {d : Byte} {s t : State} (h : WriteEffect a d s t) :
    (∃ f, t.fault = some f ∧ t.lvl.we = s.lvl.we ∧ t.ie = s.ie ∧ t.chip = s.chip ∧ t.pollCtx = s.pollCtx ∧
      pulses t.trace = pulses s.trace) ∨
      (s.chip = .idle ∧ (framed s (frame a false))[15] = true ∧
        t = { writeStarted a d s with pollCtx := some { addr := a, expect := d[7], reads := 0 } }) := by
  have hn (l m : Level) : pulses [Event.pin .sl l, .pin .sl m] = 0 := by simp [pulses]
  have hb (l : List Event) : pulses (Event.busMode .output :: l) = pulses l := by simp [pulses]
  have h0 : pulses [] = 0 := rfl
  cases h with
  | latchContended h h15 hw =>
    exact .inl ⟨_, rfl, rfl, rfl, rfl, rfl, by simp [State.raise, latchedState, hn]⟩
  | busContended h15 hw =>
    exact .inl ⟨_, rfl, rfl, rfl, rfl, rfl, by simp [State.raise, hb, h0]⟩
  | notDriven h15 hw => exact .inl ⟨_, rfl, rfl, rfl, rfl, rfl, by simp [State.raise, writeDriven, hb]⟩
  | busy h15 hc => exact .inl ⟨_, rfl, rfl, rfl, rfl, rfl, by simp [State.raise, writeDriven, hb]⟩
  | started h15 hc => exact .inr ⟨hc, h15, rfl⟩

/-! ### A poll in flight is what its command goes on with (43_completion_poller.md R171) -/

/-- An iteration of POLL, its first one included, is a poll step of `pollOf`. -/
theorem exec_poll_eq {a : Half} {e : Bool} {s : State} (hi : s.init = true)
    (ha : s.pollCtx ≠ none ∨ addrRejected a s = false) :
    exec (.poll a e) s = pollStep (s.pollOf a e) { s with pollCtx := some (s.pollOf a e) } fun x => x := by
  rcases s with ⟨params, cmds, pc, cfg, init, ctrlMode, lvl, busDir, dout, sr, q, out, trace, ie, fault, refused, pollCtx,
    chip, mem, draws, chipPlan⟩
  cases pollCtx with
  | some c => simp only [exec, execPoll, ifInitialized_pass hi, State.pollOf]
  | none => simp only [exec, execPoll, ifInitialized_pass hi, State.pollOf, ifAddressed_pass (ha.resolve_left (by simp))]

theorem exec_poll_inflight {a : Half} {e : Bool} {c : PollCtx} {s : State} (hi : s.init = true)
    (hp : s.pollCtx = some c) : exec (.poll a e) s = pollStep c s fun x => x := by
  show ifInitialized _ _ _ = _
  rw [ifInitialized_pass hi]
  simp only [hp]

theorem exec_write_inflight {a : Half} {d : Byte} {c : PollCtx} {s : State} (hi : s.init = true)
    (hp : s.pollCtx = some c) : exec (.write a d) s = pollStep c s fun x => x := by
  show ifInitialized _ _ _ = _
  rw [ifInitialized_pass hi]
  simp only [hp]

theorem exec_update_inflight {a : Half} {d : Byte} {c : PollCtx} {s : State} (hi : s.init = true)
    (hp : s.pollCtx = some c) : exec (.update a d) s = pollStep c s fun x => x.answer 1#8 := by
  show ifInitialized _ _ _ = _
  rw [ifInitialized_pass hi]
  simp only [hp]

end Sys2Proof.Machine
end

