-- ==== Sys2Proof/Laws/Memory.lean ====
section
/-! SUPPORT. The laws of the chip array: canonical form, a read after a write, and every other byte unchanged. -/

namespace Sys2Proof.Machine

theorem memory_wfFrom_mono {lo lo' : Nat} {m : Memory} (hle : lo' ≤ lo) (h : Memory.wfFrom lo m = true) :
    Memory.wfFrom lo' m = true := by
  cases m with
  | nil => rfl
  | cons c t =>
    obtain ⟨b, v⟩ := c
    simp only [Memory.wfFrom, Bool.and_eq_true, decide_eq_true_eq] at h ⊢
    exact ⟨⟨⟨hle.trans h.1.1.1, h.1.1.2⟩, h.1.2⟩, h.2⟩

/-- Below the first listed address every byte reads as an unlisted one. -/
theorem memory_read_below {lo a : Nat} {m : Memory} (h : Memory.wfFrom lo m = true) (ha : a < lo) :
    Memory.read m a = Memory.unlisted := by
  induction m generalizing lo with
  | nil => rfl
  | cons c t ih =>
    obtain ⟨b, v⟩ := c
    simp only [Memory.wfFrom, Bool.and_eq_true, decide_eq_true_eq] at h
    have hne : a ≠ b := by omega
    simp only [Memory.read, hne, if_false]
    exact ih h.2 (by omega)

theorem memory_cons_wf {lo a : Nat} {v : Byte} {t : Memory} (h : Memory.wfFrom (a + 1) t = true) (hlo : lo ≤ a)
    (ha : a < 32768) : Memory.wfFrom lo (Memory.cons a v t) = true := by
  unfold Memory.cons
  split
  · exact memory_wfFrom_mono (by omega) h
  · simp_all [Memory.wfFrom]

theorem memory_write_wfFrom {lo a : Nat} {v : Byte} {m : Memory} (h : Memory.wfFrom lo m = true) (hlo : lo ≤ a)
    (ha : a < 32768) : Memory.wfFrom lo (Memory.write m a v) = true := by
  induction m generalizing lo with
  | nil => exact memory_cons_wf rfl hlo ha
  | cons c t ih =>
    obtain ⟨b, w⟩ := c
    have h' := h
    simp only [Memory.wfFrom, Bool.and_eq_true, decide_eq_true_eq] at h'
    unfold Memory.write
    split
    · exact memory_cons_wf (by simp [Memory.wfFrom, h']; omega) hlo ha
    · split
      · subst_vars
        exact memory_cons_wf h'.2 hlo ha
      · simp only [Memory.wfFrom, Bool.and_eq_true, decide_eq_true_eq]
        exact ⟨h'.1, ih h'.2 (by omega)⟩

/-- A write keeps the canonical form. -/
theorem memory_write_wf {a : Nat} {v : Byte} {m : Memory} (h : Memory.wf m = true) (ha : a < 32768) :
    Memory.wf (Memory.write m a v) = true := memory_write_wfFrom h (Nat.zero_le a) ha

theorem memory_read_cons_same {a : Nat} {v : Byte} {t : Memory} (h : Memory.wfFrom (a + 1) t = true) :
    Memory.read (Memory.cons a v t) a = v := by
  unfold Memory.cons
  split
  · rw [memory_read_below h (by omega)]; simp_all
  · simp [Memory.read]

theorem memory_read_cons_other {a b : Nat} {v : Byte} {t : Memory} (hne : b ≠ a) :
    Memory.read (Memory.cons a v t) b = Memory.read t b := by
  unfold Memory.cons
  split
  · rfl
  · simp [Memory.read, hne]

/-- A read after a write to the same address gives the byte written. -/
theorem memory_read_write_same {lo a : Nat} {v : Byte} {m : Memory} (h : Memory.wfFrom lo m = true) :
    Memory.read (Memory.write m a v) a = v := by
  induction m generalizing lo with
  | nil => exact memory_read_cons_same rfl
  | cons c t ih =>
    obtain ⟨b, w⟩ := c
    have h' := h
    simp only [Memory.wfFrom, Bool.and_eq_true, decide_eq_true_eq] at h'
    unfold Memory.write
    split
    · exact memory_read_cons_same (by simp [Memory.wfFrom, h']; omega)
    · split
      · subst_vars
        exact memory_read_cons_same h'.2
      · rename_i hne
        simp only [Memory.read, hne, if_false]
        exact ih h'.2

/-- A write leaves every other byte as it was. -/
theorem memory_read_write_other {a b : Nat} {v : Byte} {m : Memory} (hne : b ≠ a) :
    Memory.read (Memory.write m a v) b = Memory.read m b := by
  induction m with
  | nil => exact memory_read_cons_other hne
  | cons c t ih =>
    obtain ⟨k, w⟩ := c
    unfold Memory.write
    split
    · exact memory_read_cons_other hne
    · split
      · subst_vars
        rw [memory_read_cons_other hne]
        simp [Memory.read, hne]
      · simp only [Memory.read, ih]

end Sys2Proof.Machine
end

