-- ==== Sys2Proof/Laws/PerInstr.lean ====
section
/-! SUPPORT. Per-instruction laws. `FieldUse`: the encoded word of a command carries its operation code in bits 31..28,
zero in bits 27..25, and zero in every field the command does not use (30_encoding.md R90, R91). -/

namespace Sys2Proof.Laws.FieldUse

def Statement (i : Instr) : Prop :=
  Word.op (encode i) = i.opcode ∧ Word.opDefined (encode i) = true ∧ Word.unusedZero (encode i) = true

theorem init : Statement .init := by unfold Statement; decide

theorem setaddr (a : Half) (oe : Bool) : Statement (.setaddr a oe) := by
  simp [Statement, encode, Instr.opcode, Word.opDefined, Word.unusedZero, usesFlag, usesAddr, usesData]

theorem busin : Statement .busin := by unfold Statement; decide

theorem busout : Statement .busout := by unfold Statement; decide

theorem rdbyte : Statement .rdbyte := by unfold Statement; decide

theorem wrbyte (d : Byte) : Statement (.wrbyte d) := by
  simp [Statement, encode, Instr.opcode, Word.opDefined, Word.unusedZero, usesFlag, usesAddr, usesData]

theorem pulsewe : Statement .pulsewe := by unfold Statement; decide

theorem poll (a : Half) (e : Bool) : Statement (.poll a e) := by
  simp [Statement, encode, Instr.opcode, Word.opDefined, Word.unusedZero, usesFlag, usesAddr, usesData]

theorem read (a : Half) : Statement (.read a) := by
  simp [Statement, encode, Instr.opcode, Word.opDefined, Word.unusedZero, usesFlag, usesAddr, usesData]

theorem write (a : Half) (d : Byte) : Statement (.write a d) := by
  simp [Statement, encode, Instr.opcode, Word.opDefined, Word.unusedZero, usesFlag, usesAddr, usesData]

theorem update (a : Half) (d : Byte) : Statement (.update a d) := by
  simp [Statement, encode, Instr.opcode, Word.opDefined, Word.unusedZero, usesFlag, usesAddr, usesData]

end Sys2Proof.Laws.FieldUse
end

