-- ==== Sys2Proof/Laws/Step.lean ====
section
/-! SUPPORT. The inversion of `step`: the chip completes, the host has nothing, a word is refused, or a command runs. -/

namespace Sys2Proof.Machine

/-- The chip's turn changes only the model's own two fields. -/
theorem chipTurn_state (s : State) : ∃ n p, s.chipTurn.2 = { s with draws := n, chipPlan := p } := by
  unfold State.chipTurn
  split <;> exact ⟨_, _, rfl⟩

/-- An Idle chip takes no turn. -/
theorem chipTurn_idle {s : State} (h : s.chip = .idle) : s.chipTurn = (false, s) := by
  unfold State.chipTurn
  rw [h]

/-- A writing chip takes the turn its schedule says. -/
theorem chipTurn_planned {s : State} {a : ChipAddr} {d : Byte} {b : Bool} {rest : List Bool} (h : s.chip = .writing a d)
    (hp : s.chipPlan = b :: rest) : s.chipTurn = (b, { s with chipPlan := rest }) := by
  unfold State.chipTurn
  rw [h, hp]

/-- Every next state of a step, `u` being `s` with the chip's choice taken. -/
inductive StepEffect (s : State) : State → Prop where
  | completed (n : Nat) (p : List Bool) (a : ChipAddr) (d : Byte) (hc : s.chip = .writing a d) :
      StepEffect s { s with draws := n, chipPlan := p, mem := s.mem.write a.toNat d, chip := .idle }
  | waited (n : Nat) (p : List Bool) (hf : s.fetch = none) : StepEffect s { s with draws := n, chipPlan := p }
  | refused (n : Nat) (p : List Bool) (w : Word) (hf : s.fetch = some w) (hd : s.command = none) :
      StepEffect s { s with draws := n, chipPlan := p, refused := some (.illegalCommand w) }
  | ran (n : Nat) (p : List Bool) (i : Instr) (t : State) (hd : s.command = some i)
      (he : exec i { s with draws := n, chipPlan := p } = .next t) : StepEffect s t

/-- The inversion of `step`. -/
theorem step_effect {s t : State} (h : step s = .next t) : s.fault = none ∧ s.refused = none ∧ StepEffect s t := by
  unfold step at h
  split at h
  · cases h
  · cases h
  · rename_i hf hr
    refine ⟨hf, hr, ?_⟩
    obtain ⟨n, p, hu⟩ := chipTurn_state s
    split at h
    · rename_i hb
      rw [hu] at h
      cases hc : s.chip with
      | idle => rw [chipTurn_idle hc] at hb; cases hb
      | writing a d =>
        simp only [State.chipComplete, hc] at h
        cases h
        exact .completed n p a d hc
    · rw [hu] at h
      simp only [blockStep, State.fetch] at h
      split at h
      · rename_i hf; cases h; exact .waited n p hf
      · rename_i w hf
        split at h
        · rename_i i hd; exact .ran n p i t (by simp [State.command, State.fetch, hf, hd, Except.toOption]) h
        · rename_i e hd
          cases h
          exact .refused n p w hf (by simp [State.command, State.fetch, hf, hd, Except.toOption])

/-- The command at `pc` is the same where the list and `pc` are. -/
theorem command_congr {s t : State} (hc : t.cmds = s.cmds) (hp : t.pc = s.pc) : t.command = s.command := by
  simp [State.command, State.fetch, hc, hp]

/-- Where the chip does not take its turn, a step is `exec` of the command at `pc`. -/
theorem step_command {s : State} {i : Instr} (hf : s.fault = none) (hr : s.refused = none) (hc : s.command = some i)
    (hb : s.chipTurn.1 = false) : step s = exec i s.chipTurn.2 := by
  obtain ⟨n, p, hu⟩ := chipTurn_state s
  unfold State.command at hc
  cases hw : s.fetch with
  | none => simp [hw] at hc
  | some w =>
    rw [hw] at hc
    have hfe : s.chipTurn.2.fetch = some w := by rw [hu]; exact hw
    simp only [step, hf, hr, hb, blockStep, hfe]
    cases hd : decode w with
    | ok j => simp [hd, Except.toOption] at hc; simp [hc]
    | error e => simp [hd, Except.toOption] at hc

/-- A run begins with a step. -/
theorem core_run_succ (M : Host.Core) {n : Nat} {s t : M.State} (h : M.step s = .next t) : M.run (n + 1) s = M.run n t := by
  simp only [Host.Core.run, h]

/-- A run ends with a step. -/
theorem core_run_next (M : Host.Core) {n : Nat} {s t : M.State} (h : M.run n s = .next t) : M.run (n + 1) s = M.step t := by
  induction n generalizing s with
  | zero =>
    cases h
    simp only [Host.Core.run]
    generalize M.step _ = r
    cases r <;> rfl
  | succ n ih =>
    simp only [Host.Core.run] at h
    split at h
    · rename_i u hu
      rw [core_run_succ M hu]
      exact ih h
    · cases h
    · cases h

theorem run_succ {n : Nat} {s t : State} (h : step s = .next t) : Sys2Proof.core.run (n + 1) s = Sys2Proof.core.run n t :=
  core_run_succ Sys2Proof.core h

theorem run_next {n : Nat} {s t : State} (h : Sys2Proof.core.run n s = .next t) :
    Sys2Proof.core.run (n + 1) s = step t := core_run_next Sys2Proof.core h

end Sys2Proof.Machine
end

