-- ==== Sys2Proof/Tests/Slice0.lean ====
section
/-! SUPPORT. Tests: ill-formed terms the checks refuse, decoding of words written out from the spec, single steps with
the results of 95_test_vectors.md, and witnesses that the hypotheses of the obligations can be met. Every expected value
comes from spec/95_test_vectors.md or from the rule the test names. -/

namespace Sys2Proof.Tests

set_option maxRecDepth 8192

open Sys2Proof Sys2Proof.Machine

/-! ### Helpers -/

/-- The state an outcome answers; the reset state for a stop (no test rests on that). -/
def nextOf (o : Host.Outcome State Fault Refusal) : State :=
  match o with
  | .next t => t
  | .fault _ => State.reset
  | .refused _ => State.reset

/-- Whether an outcome is a next state. -/
def isNext (o : Host.Outcome State Fault Refusal) : Bool :=
  match o with
  | .next _ => true
  | .fault _ => false
  | .refused _ => false

theorem eq_next {o : Host.Outcome State Fault Refusal} (h : isNext o = true) : o = .next (nextOf o) := by
  cases o with
  | next t => rfl
  | fault f => cases h
  | refused r => cases h

/-- The state `exec` answers. -/
def after (i : Instr) (s : State) : State := nextOf (exec i s)

/-- The start state of most vectors: S0 of 95_test_vectors.md after its INIT. -/
def ready : State :=
  { State.reset with
    cfg := Config.scenarioPins
    init := true
    ctrlMode := { sd := .output, sc := .output, sl := .output, we := .output }
    lvl := { sd := false, sc := false, sl := false, we := true }
    trace := [.constructed]
    pc := 1 }

/-- `ready` in HARDENED with a poll limit. -/
def hard (limit : Nat) : State := { ready with params := { ready.params with mode := .hardened, pollLimit := limit } }

/-- Bus output, address 0x1234 latched with the chip's outputs off, 0x5A on the lines: set-up T of V5. -/
def driven : State := { ready with busDir := .output, q := 0x9234#16, sr := 0x9234#16, dout := 0x5A#8 }

/-- Bus input and the address 0x1234 latched with the chip's outputs on. -/
def reading : State :=
  { ready with
    busDir := .input, q := 0x1234#16, sr := 0x1234#16
    trace := [.constructed, .busMode .input, .pin .sl false, .pin .sl true, .pin .sl false] }

/-- A WRITE 0x1234, 0x5A whose pulse is done and whose poll is in flight. -/
def polling : State :=
  { driven with
    cmds := [0x9012345A#32], pc := 0, chip := .writing 0x1234#15 0x5A#8
    pollCtx := some { addr := 0x1234#16, expect := false, reads := 0 }
    trace := [.constructed, .pin .sl false] }

/-- The pins of 95_test_vectors.md §0 with the data span and WE replaced. -/
def pinsWith (sc dhi we : Nat) : PinConfig := { sd := 2, sc := sc, sl := 4, dlo := 5, dhi := dhi, we := we }

/-! ### WellFormed -/

theorem test_pins_valid : (pinsWith 3 12 13).valid = true := by decide

/-- V8.6. -/
theorem test_pins_valid_low : PinConfig.valid { sd := 8, sc := 9, sl := 10, dlo := 0, dhi := 7, we := 11 } = true := by
  decide

/-- V8.2 and V8.3: nine and seven data lines. -/
theorem test_pins_span_refused :
    (pinsWith 3 13 14).valid = false ∧ (pinsWith 3 11 13).valid = false ∧ (pinsWith 3 13 14).spanOk = false := by decide

/-- V8.4 and V8.5: two control pins on one pin, and WE on a data line, at the ends and the middle of the span. -/
theorem test_pins_alias_refused :
    (pinsWith 2 12 13).valid = false ∧ (pinsWith 3 12 9).valid = false ∧ (pinsWith 3 12 5).valid = false ∧
      (pinsWith 3 12 12).valid = false := by decide

/-- POLL_LIMIT is at least 1 (00_scope.md R6). -/
theorem test_params_refused :
    Params.wellFormed { Config.defaultParams with pollLimit := 0 } = false ∧ Config.defaultParams.wellFormed = true := by
  decide

/-- V1: a reserved operation code, and a nonzero bit outside the fields a command uses. -/
theorem test_word_refused :
    Word.wellFormed 0xB0000000#32 = false ∧ Word.opDefined 0xB0000000#32 = false ∧ Word.wellFormed 0x12000000#32 = false ∧
      Word.unusedZero 0x12000000#32 = false ∧ Word.wellFormed 0x9012345A#32 = true := by decide

/-- 30_encoding.md R82. -/
theorem test_addr_range : addrInRange 0x7FFF#16 = true ∧ addrInRange 0x8000#16 = false := by decide

/-! ### Decoding: the words of V1 -/

theorem test_decode_init : decode 0x00000000#32 = .ok .init := by decide
theorem test_decode_setaddr :
    decode 0x10123400#32 = .ok (.setaddr 0x1234#16 false) ∧ decode 0x11001000#32 = .ok (.setaddr 0x0010#16 true) := by decide
theorem test_decode_busin : decode 0x20000000#32 = .ok .busin := by decide
theorem test_decode_busout : decode 0x30000000#32 = .ok .busout := by decide
theorem test_decode_rdbyte : decode 0x40000000#32 = .ok .rdbyte := by decide
theorem test_decode_wrbyte :
    decode 0x5000005A#32 = .ok (.wrbyte 0x5A#8) ∧ decode 0x500000FF#32 = .ok (.wrbyte 0xFF#8) := by decide
theorem test_decode_pulsewe : decode 0x60000000#32 = .ok .pulsewe := by decide
theorem test_decode_poll :
    decode 0x70123400#32 = .ok (.poll 0x1234#16 false) ∧ decode 0x71001000#32 = .ok (.poll 0x0010#16 true) := by decide
theorem test_decode_read :
    decode 0x80001000#32 = .ok (.read 0x0010#16) ∧ decode 0x80FFFF00#32 = .ok (.read 0xFFFF#16) := by decide
theorem test_decode_write : decode 0x9012345A#32 = .ok (.write 0x1234#16 0x5A#8) := by decide
theorem test_decode_update : decode 0xA00010AA#32 = .ok (.update 0x0010#16 0xAA#8) := by decide

/-- The encoder on the same commands. -/
theorem test_encode :
    encode (.setaddr 0x0010#16 true) = 0x11001000#32 ∧ encode (.poll 0x1234#16 false) = 0x70123400#32 ∧
      encode (.write 0x1234#16 0x5A#8) = 0x9012345A#32 ∧ encode (.wrbyte 0xFF#8) = 0x500000FF#32 := by decide

/-- The refused words of V1 with a defined operation code. -/
theorem test_decode_refused :
    decode 0x00000001#32 = .error (.unusedNonzero 0x00000001#32) ∧
      decode 0x20000001#32 = .error (.unusedNonzero 0x20000001#32) ∧
      decode 0x12000000#32 = .error (.unusedNonzero 0x12000000#32) ∧
      decode 0x100000FF#32 = .error (.unusedNonzero 0x100000FF#32) ∧
      decode 0x41000000#32 = .error (.unusedNonzero 0x41000000#32) ∧
      decode 0x800010AA#32 = .error (.unusedNonzero 0x800010AA#32) ∧
      decode 0x9100105A#32 = .error (.unusedNonzero 0x9100105A#32) ∧
      decode 0xF0000000#32 = .error (.reservedOp 0xF0000000#32) := by decide

theorem test_table_word : decodeTableWord 32 0x71001000 = some (.poll 0x0010#16 true) ∧ decodeTableWord 32 0xB0000000 = none := by
  decide

/-! ### Frames (V2) -/

theorem test_frame :
    frame 0x1234#16 false = 0x9234#16 ∧ frame 0x8010#16 true = 0x0010#16 ∧ frame 0x5A5A#16 false = 0xDA5A#16 ∧
      frameHigh 0xDA5A#16 = 0xDA#8 ∧ frameLow 0xDA5A#16 = 0x5A#8 ∧ decodeFrame 0xDA5A#16 = (0x5A5A#16, false) := by decide

/-! ### One step each -/

/-- V8.1. -/
theorem test_init :
    let t := after .init State.reset
    t.init = true ∧ t.trace = [.constructed] ∧ t.lvl = { sd := false, sc := false, sl := false, we := true } ∧
      t.busDir = .unknown ∧ t.out = [] ∧ t.ie = true ∧ t.pc = 1 := by decide

/-- V8.2. -/
theorem test_init_bad_span :
    let t := after .init { State.reset with params := { State.reset.params with pins := pinsWith 3 13 14 } }
    t.fault = some (.configurationError (pinsWith 3 13 14)) ∧ t.init = false ∧ t.pc = 0 ∧ t.trace = [] := by decide

/-- V2, 0x1234 with oe = 0: the word latched, and the SD sequence 1001001000110100. -/
theorem test_setaddr :
    let t := after (.setaddr 0x1234#16 false) ready
    t.q = 0x9234#16 ∧ t.sr = 0x9234#16 ∧ t.trace.length = 52 ∧ t.fault = none ∧
      t.trace.filterMap (fun e => match e with | .pin .sd l => some l | _ => none) =
        [true, false, false, true, false, false, true, false, false, false, true, true, false, true, false, false] := by
  decide

/-- V3.1: contention at the latch, 50 events, SL high, `pc` kept. -/
theorem test_setaddr_contention :
    let t := after (.setaddr 0x0010#16 true) ready
    t.fault = some (.busContention 0x0010#16 .unknown) ∧ t.trace.length = 51 ∧ t.q = 0x0010#16 ∧ t.lvl.sl = true ∧
      t.pc = 1 := by decide

/-- V4.8. -/
theorem test_busin :
    let t := after .busin ready
    t.busDir = .input ∧ t.trace = [.constructed, .busMode .input] ∧ t.pc = 2 ∧ t.fault = none := by decide

/-- V4.6. -/
theorem test_busout :
    let t := after .busout { ready with q := 0x9234#16 }
    t.busDir = .output ∧ t.fault = none ∧ t.pc = 2 := by decide

/-- V4.7 (P3). -/
theorem test_busout_contention :
    let t := after .busout { reading with q := 0x0000#16 }
    t.fault = some (.busContention 0x0000#16 .output) ∧ t.trace.length = 6 ∧ t.pc = 1 := by decide

/-- V4: b = 0x5A. -/
theorem test_rdbyte :
    let t := after .rdbyte { reading with mem := [(0x1234, 0x5A#8)] }
    t.out = [0x5A#8] ∧ t.trace.drop 5 = [.sample 7, .sample 6, .sample 5, .sample 4, .sample 3, .sample 2, .sample 1, .sample 0] := by
  decide

/-- V4.1. -/
theorem test_rdbyte_direction :
    let t := after .rdbyte ready
    t.fault = some (.busDirection 0x4#4 .unknown) ∧ t.trace = ready.trace := by decide

/-- V4: d = 0xAA drives 0,1,0,1,0,1,0,1 on lines 0..7. -/
theorem test_wrbyte :
    let t := after (.wrbyte 0xAA#8) driven
    t.dout = 0xAA#8 ∧ t.trace.drop 1 = [.line 0 false, .line 1 true, .line 2 false, .line 3 true, .line 4 false, .line 5 true,
      .line 6 false, .line 7 true] := by decide

/-- V4.3. -/
theorem test_wrbyte_direction :
    (after (.wrbyte 0x12#8) reading).fault = some (.busDirection 0x5#4 .input) := by decide

/-- V5.1. -/
theorem test_pulsewe :
    let t := after .pulsewe driven
    t.chip = .writing 0x1234#15 0x5A#8 ∧ t.ie = true ∧ t.mem = [] ∧ pulses t.trace = 1 ∧
      t.trace.drop 1 = [.irq false, .pin .we false, .delayWe 0, .pin .we true, .irq true] := by decide

/-- V5.3 and V5.4: IRQ_EXIT = RESTORE with the flag off, and a chip still writing. -/
theorem test_pulsewe_restore_and_busy :
    (after .pulsewe { driven with ie := false, params := { driven.params with irqExit := .restore } }).ie = false ∧
      (after .pulsewe polling).fault = some (.chipBusy (.writing 0x1234#15 0x5A#8)) := by decide

/-- V6.1: one iteration, 61 events. -/
theorem test_poll :
    let t := after (.poll 0x0010#16 true) { ready with mem := [(0x0010, 0xAA#8)] }
    t.pc = 2 ∧ t.trace.length = 62 ∧ t.out = [] ∧ t.q = 0x0010#16 ∧ t.busDir = .input ∧ t.pollCtx = none := by
  decide

/-- V6.3 at its last read, and V6.4: the compare comes before the limit. -/
theorem test_poll_limit :
    (after (.poll 0x0000#16 true) { hard 3 with pollCtx := some { addr := 0x0000#16, expect := true, reads := 2 } }).fault =
        some (.writeTimeout 0x0000#16 3) ∧
      (after (.poll 0x0000#16 true) { hard 1 with mem := [(0, 0x80#8)] }).fault = none := by decide

/-- V9.1. -/
theorem test_read :
    let t := after (.read 0x0010#16) { ready with mem := [(0x0010, 0xAA#8)] }
    t.out = [0xAA#8] ∧ t.trace.length = 61 ∧ t.q = 0x0010#16 ∧ t.busDir = .input ∧ t.lvl.sd = false := by decide

/-- V9.2: 0xFFFF is 0x7FFF in BASE. -/
theorem test_read_alias : (after (.read 0xFFFF#16) { ready with mem := [(0x7FFF, 0x3C#8)] }).out = [0x3C#8] := by
  decide

/-- V9.4, the first step: 65 events, the chip writing, the poll begun. -/
theorem test_write :
    let t := after (.write 0x1234#16 0x5A#8) ready
    t.chip = .writing 0x1234#15 0x5A#8 ∧ t.trace.length = 66 ∧ t.pc = 1 ∧
      t.pollCtx = some { addr := 0x1234#16, expect := false, reads := 0 } := by decide

/-- V9.11: 60 events, then ChipBusy before `(IRQ false)`. -/
theorem test_write_busy :
    let t := after (.write 0x1234#16 0x5A#8) { ready with chip := .writing 0x1234#15 0x5A#8 }
    t.fault = some (.chipBusy (.writing 0x1234#15 0x5A#8)) ∧ t.trace.length = 61 ∧ t.ie = true := by decide

/-- V9.8. -/
theorem test_update_equal :
    let t := after (.update 0x0010#16 0xAA#8) { ready with mem := [(0x0010, 0xAA#8)] }
    t.out = [0x00#8] ∧ t.trace.length = 61 ∧ pulses t.trace = 0 ∧ t.pc = 2 := by decide

/-- V9.10, up to its poll: a difference in bit 0 alone is written. -/
theorem test_update_other :
    let t := after (.update 0x0010#16 0xAA#8) { ready with mem := [(0x0010, 0xAB#8)] }
    t.chip = .writing 0x0010#15 0xAA#8 ∧ pulses t.trace = 1 ∧ t.out = [] := by decide

/-! ### Steps -/

/-- P6: a refused word. -/
theorem test_step_refused :
    let t := nextOf (step { ready with cmds := [0x00000000#32, 0xB0000000#32, 0x80000000#32] })
    t.refused = some (.illegalCommand 0xB0000000#32) ∧ t.pc = 1 ∧ t.trace = [.constructed] := by decide

/-- V8.8: READ 0 as the first command. -/
theorem test_step_before_init :
    let t := nextOf (step { State.reset with cmds := [0x80000000#32] })
    t.fault = some (.notInitialized 0x8#4) ∧ t.pc = 0 ∧ t.trace = [] := by decide

/-- V7.2's completion, before the first poll read: the byte is stored. -/
theorem test_step_completes :
    let t := nextOf (step { polling with chipPlan := [true] })
    t.chip = .idle ∧ t.mem = [(0x1234, 0x5A#8)] ∧ t.pc = 0 := by decide

/-- Nothing to run: the block waits for the host (70_reset_and_hazards.md R254). -/
theorem test_step_waits : step State.reset = .next State.reset := rfl

/-- The host places a word where the next step fetches it. -/
theorem test_fetch_word :
    (nextOf (step (State.reset.withFetchWord 32 0x00000000))).init = true ∧
      (nextOf (step (ready.withFetchWord 32 0x20000000))).busDir = .input ∧
      (State.reset.withFetchWord 32 0x00000000).fetch = some 0x00000000#32 := by decide

/-- The chip array drops a byte that an unlisted one would read as (`Memory.unlisted`). -/
theorem test_memory :
    Memory.write [(3, 0x01#8)] 3 0x00#8 = [] ∧ Memory.write [(3, 0x01#8)] 1 0x02#8 = [(1, 0x02#8), (3, 0x01#8)] ∧
      Memory.wf [(3, 0x01#8), (3, 0x02#8)] = false ∧ Memory.wf [(32768, 0x01#8)] = false := by decide

/-! ### Witnesses: the hypotheses of the obligations can be met, clause by clause

Each names the obligation it belongs to. Operands at the ends of a range are taken where an obligation has a range. -/

theorem witness_init : State.reset.init = false ∧ State.reset.params.pins.valid = true := by decide

theorem witness_second_init : ready.init = true := by decide

/-- ConfigurationValidity, both sides: SD just outside the span and on its two ends; a span of nine refused by INIT. -/
theorem witness_configuration :
    (let at4 : PinConfig := { sd := 4, sc := 3, sl := 2, dlo := 5, dhi := 12, we := 13 }
     at4.valid = true ∧ PinConfig.valid { at4 with sd := 5 } = false ∧ PinConfig.valid { at4 with we := 12 } = false) ∧
      (let s := { State.reset with params := { State.reset.params with pins := pinsWith 3 13 14 } }
       s.init = false ∧ s.params.pins.valid = false) := by decide

/-- ConfigurationNeverMutated, and every obligation over a step from a constructed machine. -/
theorem witness_step : ∃ t, ready.init = true ∧ step { ready with cmds := [0x00000000#32, 0x20000000#32] } = .next t :=
  ⟨_, rfl, eq_next (by decide)⟩

theorem witness_before_init : Instr.read 0x0000#16 ≠ .init ∧ State.reset.init = false := by decide

theorem witness_frame_range : (0x7FFF#16).toNat ≤ 0x7FFF := by decide

/-- SetaddrLatchesTheFrame: outputs off; bus in input mode; /WE low. -/
theorem witness_setaddr :
    (ready.init = true ∧ addrRejected 0xFFFF#16 ready = false ∧ ready.lvl.sc = false) ∧ reading.busDir = .input ∧
      reading.lvl.sc = false ∧
      (let s := { ready with lvl := { ready.lvl with we := false } }
       s.init = true ∧ s.lvl.sc = false ∧ s.lvl.we = false ∧ s.busDir ≠ .input) := by decide

/-- SetaddrWithClockHighLosesFirstBit: no contention (V3.3: the lost bit reads 1), and contention (it reads 0). -/
theorem witness_clock_high :
    (let s := { reading with sr := 0x0001#16, lvl := { reading.lvl with sc := true } }
     s.init = true ∧ addrRejected 0x1234#16 s = false ∧ s.lvl.sc = true ∧ s.sr.getLsbD 0 = true) ∧
      (let s := { driven with sr := 0x0000#16, lvl := { driven.lvl with sc := true } }
       s.init = true ∧ addrRejected 0x1234#16 s = false ∧ s.lvl.sc = true ∧ s.busDir ≠ .input ∧ s.sr.getLsbD 0 = false ∧
         s.lvl.we = true) := by decide

theorem witness_setaddr_contention :
    ready.init = true ∧ addrRejected 0x0010#16 ready = false ∧ ready.lvl.sc = false ∧ ready.busDir ≠ .input ∧
      ready.lvl.we = true := by decide

theorem witness_hardened :
    (hard 1).init = true ∧ (hard 1).params.mode = .hardened ∧ 0x7FFF < (0x8000#16).toNat ∧ (hard 1).pollCtx = none := by
  decide

/-- BaseIgnoresAddressBit15, each of its three clauses at the boundary address 0x7FFF; the WRITE keeps a poll, and the
UPDATE of an equal byte keeps none. -/
theorem witness_alias :
    ready.params.mode = .base ∧ ready.pollCtx = none ∧ (∃ t, exec (.poll 0x7FFF#16 false) ready = .next t) ∧
      (∃ t, exec (.write 0x7FFF#16 0x5A#8) ready = .next t ∧
        t.pollCtx = some { addr := 0x7FFF#16, expect := false, reads := 0 }) ∧
      ∃ t, exec (.update 0x7FFF#16 0x00#8) ready = .next t ∧ t.pollCtx = none :=
  ⟨rfl, rfl, ⟨_, eq_next (by decide)⟩, ⟨_, eq_next (by decide), by decide⟩, _, eq_next (by decide), by decide⟩

/-- BusoutTurnsBusToOutput: /OE high, or /WE low. BusoutContentionWithChip: neither. -/
theorem witness_busout :
    (driven.init = true ∧ driven.q.getLsbD 15 = true) ∧
      (let s := { reading with lvl := { reading.lvl with we := false } }
       s.init = true ∧ s.q.getLsbD 15 = false ∧ s.lvl.we = false) ∧
      (reading.init = true ∧ reading.q.getLsbD 15 = false ∧ reading.lvl.we = true) := by decide

/-- RdbyteAppendsStoredByte, RdbyteWithOutputsOffIsNoFault, and RdbyteWhileChipWrites at the address and at another one. -/
theorem witness_rdbyte :
    (reading.init = true ∧ reading.busDir = .input ∧ reading.q.getLsbD 15 = false ∧ reading.lvl.we = true ∧
      reading.chip = .idle) ∧ { reading with q := 0x9234#16 }.q.getLsbD 15 = true ∧
      (let s := { reading with chip := .writing 0x1234#15 0x5A#8 }
       s.chip = .writing 0x1234#15 0x5A#8 ∧ chipAddr s.q = 0x1234#15) ∧
      chipAddr 0x0010#16 ≠ 0x1234#15 := by decide

/-- TransferAgainstDirectionFaults: both clauses; WrbyteDrivesTheByte and LoopbackYieldsTheByte: output mode. -/
theorem witness_direction :
    (ready.init = true ∧ ready.busDir ≠ .input ∧ ready.busDir ≠ .output) ∧ driven.init = true ∧ driven.busDir = .output := by
  decide

/-- PulseweStartsTheWriteCycle under both values of IRQ_EXIT; PulsewePreconditionsInOrder: bus not in output mode, /OE
low, chip busy. -/
theorem witness_pulsewe :
    (driven.init = true ∧ driven.busDir = .output ∧ driven.q.getLsbD 15 = true ∧ driven.chip = .idle ∧
      driven.params.irqExit = .enable) ∧
      { driven with params := { driven.params with irqExit := .restore } }.params.irqExit = .restore ∧
      ready.busDir ≠ .output ∧ { driven with q := 0x1234#16 }.q.getLsbD 15 = false ∧
      (polling.busDir = .output ∧ polling.q.getLsbD 15 = true ∧ polling.chip ≠ .idle) := by decide

/-- `ready` with SC high over a stage 0 of the given level. -/
def clockHigh (b : Bool) : State :=
  { ready with lvl := { ready.lvl with sc := true }, sr := if b then 0x0001#16 else 0x0000#16 }

/-- A poll at 0x0010 while the chip writes elsewhere (V7.6): the byte is free, and ends the poll of one of the two bits. -/
def elsewhere : State := { ready with chip := .writing 0x1234#15 0x5A#8 }

/-- PollEndsOnMatchingEcho: an Idle chip (V6.1), a poll in flight at the address being written (its address rejected in
HARDENED or not), one beside it (V7.6), and a first read with SC high. -/
theorem witness_poll_match :
    (let s := { ready with mem := [(0x0010, 0xAA#8)] }
     s.init = true ∧ addrRejected 0x0010#16 s = false ∧
       PollReads (s.pollOf 0x0010#16 true) s (s.pollOf 0x0010#16 true).expect) ∧
      (let s := { polling with pollCtx := some { addr := 0x1234#16, expect := true, reads := 7 } }
       s.pollCtx ≠ none ∧ PollReads (s.pollOf 0x8000#16 false) s (s.pollOf 0x8000#16 false).expect) ∧
      (∃ e, elsewhere.init = true ∧ addrRejected 0x0010#16 elsewhere = false ∧ elsewhere.echo 0x0010#16 = none ∧
        PollReads (elsewhere.pollOf 0x0010#16 e) elsewhere (elsewhere.pollOf 0x0010#16 e).expect) ∧
      PollReads ((clockHigh false).pollOf 0x0010#16 false) (clockHigh false)
        ((clockHigh false).pollOf 0x0010#16 false).expect :=
  ⟨⟨rfl, by decide, .inr (by decide)⟩, ⟨by decide, .inr (by decide)⟩, ⟨(readByte 0x0010#16 (elsewhere.emit .delayPoll)).getLsbD 7, rfl,
    by decide, by decide, .inl rfl⟩, .inl (by decide)⟩

/-- PollGoesOnAfterMiss: in BASE, in HARDENED one read before the limit, beside the write (V7.6), and with SC high. -/
theorem witness_poll_miss :
    (polling.init = true ∧ polling.pollCtx ≠ none ∧
      PollReads (polling.pollOf 0x1234#16 false) polling (!(polling.pollOf 0x1234#16 false).expect) ∧
      ¬ (polling.params.mode = .hardened ∧ (polling.pollOf 0x1234#16 false).reads + 1 = polling.params.pollLimit)) ∧
      (let s := { polling with params := (hard 2).params }
       ¬ (s.params.mode = .hardened ∧ (s.pollOf 0x1234#16 false).reads + 1 = s.params.pollLimit)) ∧
      (∃ e, PollReads (elsewhere.pollOf 0x0010#16 e) elsewhere (!(elsewhere.pollOf 0x0010#16 e).expect)) ∧
      PollReads ((clockHigh false).pollOf 0x0010#16 true) (clockHigh false)
        (!((clockHigh false).pollOf 0x0010#16 true).expect) :=
  ⟨⟨rfl, by decide, .inr (by decide), by decide⟩, by decide, ⟨!(readByte 0x0010#16 (elsewhere.emit .delayPoll)).getLsbD 7, .inl (Bool.not_not _).symm⟩, .inl (by decide)⟩

/-- HardenedPollTimesOutAtLimit (V7.5, its second read). -/
theorem witness_poll_timeout :
    let s := { polling with
      params := (hard 2).params, pollCtx := some { addr := 0x1234#16, expect := false, reads := 1 } }
    s.init = true ∧ s.pollCtx ≠ none ∧
      PollReads (s.pollOf 0x1234#16 false) s (!(s.pollOf 0x1234#16 false).expect) ∧ s.params.mode = .hardened ∧
      (s.pollOf 0x1234#16 false).reads + 1 = s.params.pollLimit :=
  ⟨rfl, by decide, .inr (by decide), by decide, by decide⟩

/-- BasePollOfOtherBitNeverEnds (P4). -/
theorem witness_poll_forever :
    let s := { ready with cmds := [0x00000000#32, 0x71000000#32] }
    s.params.mode = .base ∧ s.fault = none ∧ s.refused = none ∧ s.init = true ∧ s.lvl.sc = false ∧ s.lvl.we = true ∧
      s.chip = .idle ∧ s.pollCtx = none ∧ s.command = some (.poll 0x0000#16 true) ∧
      (s.mem.read (chipAddr 0x0000#16).toNat).getLsbD 7 = !true := by decide

/-- ReadAppendsStoredByte, ReadsNeverMutateTheChip, WriteStartsTheWriteCycle, ReadIsItsExpansion, and the address part of
the UPDATE obligations. -/
theorem witness_device_op :
    (ready.init = true ∧ ready.fault = none ∧ addrRejected 0xFFFF#16 ready = false ∧ ready.lvl.sc = false ∧
      ready.lvl.we = true ∧ ready.chip = .idle ∧ ready.pollCtx = none) ∧ addrRejected 0x7FFF#16 (hard 1) = false := by decide

/-- The other clauses of ReadAppendsStoredByte: SC high over a clear stage 0, the chip writing at the address and at
another one, SC high over a set stage 0, /WE low. -/
theorem witness_read_values :
    ((clockHigh false).lvl.sc = true ∧ (clockHigh false).sr.getLsbD 0 = false ∧ (clockHigh false).lvl.we = true ∧
      (clockHigh false).chip = .idle ∧ addrRejected 0x7FFF#16 (clockHigh false) = false) ∧
      (elsewhere.lvl.sc = false ∧ elsewhere.lvl.we = true ∧ elsewhere.chip = .writing 0x1234#15 0x5A#8 ∧
        chipAddr 0x1234#16 = 0x1234#15 ∧ chipAddr 0x0010#16 ≠ 0x1234#15) ∧
      ((clockHigh true).init = true ∧ (clockHigh true).lvl.sc = true ∧ (clockHigh true).sr.getLsbD 0 = true) ∧
      { ready with lvl := { ready.lvl with we := false } }.lvl.we = false := by decide

/-- WriteOnBusyChipFaults (V9.11), and the other side of its premise on SC, which WriteStartsTheWriteCycle shares. -/
theorem witness_write_busy :
    let s := { ready with chip := .writing 0x1234#15 0x5A#8 }
    (s.init = true ∧ addrRejected 0x1234#16 s = false ∧ s.lvl.sc = false ∧ s.chip ≠ .idle ∧ s.pollCtx = none) ∧
      (clockHigh true).lvl.sc = true ∧ (clockHigh true).sr.getLsbD 0 = true ∧ (clockHigh true).pollCtx = none := by decide

/-- WriteAndUpdateReturnOnEcho: the chip has completed; and it has not. -/
theorem witness_write_returns :
    (let s := { polling with chip := .idle, mem := [(0x1234, 0x5A#8)] }
     let c : PollCtx := { addr := 0x1234#16, expect := false, reads := 0 }
     s.init = true ∧ s.pollCtx = some c ∧ PollReads c s c.expect) ∧
      PollReads { addr := 0x1234#16, expect := false, reads := 0 } polling (!false) :=
  ⟨⟨rfl, rfl, .inr (by decide)⟩, .inr (by decide)⟩

/-- UpdateOfEqualByteWritesNothing and UpdateOfOtherByteStartsWrite: equal, and different in bit 0 alone (V9.8, V9.10); a
read with SC high; a chip still writing there a byte with the same bit 7, and one beside it. -/
theorem witness_update :
    (Memory.read [(0x0010, 0xAA#8)] (chipAddr 0x0010#16).toNat = 0xAA#8 ∧
      Memory.read [(0x0010, 0xAB#8)] (chipAddr 0x0010#16).toNat ≠ 0xAA#8) ∧
      (readByte 0x0010#16 (clockHigh false) = 0x00#8 ∧ readByte 0x0010#16 (clockHigh false) ≠ 0x01#8 ∧
        (clockHigh false).pollCtx = none) ∧
      (elsewhere.chip = .writing 0x1234#15 0x5A#8 ∧ elsewhere.chip ≠ .idle ∧ elsewhere.pollCtx = none ∧
        chipAddr 0x1234#16 = 0x1234#15 ∧ (0x5A#8).getLsbD 7 = (0x00#8).getLsbD 7) ∧
      (∃ b, readByte 0x0010#16 elsewhere = b) ∧ (∃ b, readByte 0x0010#16 elsewhere ≠ b) ∧
      readByte 0x1234#16 elsewhere ≠ 0x00#8 := by
  refine ⟨by decide, by decide, by decide, ⟨_, rfl⟩, ?_, ?_⟩
  · exact ⟨readByte 0x0010#16 elsewhere + 1#8, fun h => by
      generalize readByte 0x0010#16 elsewhere = x at h
      revert h; revert x; decide⟩
  · intro h
    have : (readByte 0x1234#16 elsewhere)[7] = true :=
      readLatched_writing (a := 0x1234#16) (d := 0x5A#8) rfl rfl (by decide)
    rw [h] at this
    revert this; decide

/-- DeviceOpsNeverContend, first clause: a device operation that ends in one of the faults it may (V9.11), READ and UPDATE
with SC high that end in theirs, and a WRITE with SC high over a set stage 0. -/
theorem witness_device_fault :
    (elsewhere.fault = none ∧ elsewhere.lvl.sc = false ∧
      (after (.write 0x1234#16 0x5A#8) elsewhere).fault = some (.chipBusy (.writing 0x1234#15 0x5A#8))) ∧
      (let s := { clockHigh false with params := (hard 1).params }
       s.fault = none ∧ s.lvl.sc = true ∧ (after (.read 0x8000#16) s).fault = some (.addressOutOfRange 0x8000#16) ∧
         (after (.update 0x8000#16 0x5A#8) s).fault = some (.addressOutOfRange 0x8000#16)) ∧
      (let s := { clockHigh true with chip := .writing 0x1234#15 0x5A#8 }
       s.sr.getLsbD 0 = true ∧
         (after (.write 0x0010#16 0x5A#8) s).fault = some (.chipBusy (.writing 0x1234#15 0x5A#8))) := by decide

/-- DeviceOpsNeverContend, second clause: SC high over a clear stage 0 with the bus Unknown, in input mode, and /WE low. -/
theorem witness_write_contends :
    ((clockHigh false).init = true ∧ addrRejected 0x7FFF#16 (clockHigh false) = false ∧ (clockHigh false).pollCtx = none ∧
      (clockHigh false).lvl.sc = true ∧ (clockHigh false).sr.getLsbD 0 = false ∧ (clockHigh false).lvl.we = true ∧
      (clockHigh false).busDir ≠ .input) ∧
      { clockHigh false with busDir := .input }.busDir = .input ∧
      { clockHigh false with lvl := { sd := false, sc := true, sl := false, we := false } }.lvl.we = false := by decide

/-- 40_address_serializer.md R104 and 60_exceptions.md R228 on V9's WRITE: the lost /OE bit ends it at the latch edge. -/
theorem test_write_clock_high :
    let t := after (.write 0x1234#16 0x5A#8) (clockHigh false)
    t.fault = some (.busContention 0x1234#16 .unknown) ∧ t.q = 0x1234#16 ∧ t.trace.length = 51 ∧ t.pc = 1 ∧
      t.chip = .idle := by decide

/-- A poll step always answers a next state. -/
theorem pollStep_next (c : PollCtx) (s : State) (last : State → State) : ∃ t, pollStep c s last = .next t := by
  unfold pollStep
  split <;> exact ⟨_, rfl⟩

/-- WriteIsItsExpansion. -/
theorem witness_write_expansion :
    ∃ t u, ready.init = true ∧ ready.fault = none ∧ ready.pollCtx = none ∧ addrRejected 0x1234#16 ready = false ∧
      exec (.write 0x1234#16 0x5A#8) ready = .next t ∧ t.fault = none ∧ exec (.write 0x1234#16 0x5A#8) t = .next u := by
  obtain ⟨u, hu⟩ := pollStep_next { addr := 0x1234#16, expect := false, reads := 0 }
    (after (.write 0x1234#16 0x5A#8) ready) fun x => x
  refine ⟨after (.write 0x1234#16 0x5A#8) ready, u, rfl, rfl, rfl, by decide, eq_next (by decide),
    by decide, ?_⟩
  exact (exec_write_inflight (by decide) (by decide)).trans hu

/-- `polling` after the chip has completed: the next poll read matches. -/
def completed : State := { polling with chip := .idle, mem := [(0x1234, 0x5A#8)] }

theorem polling_pinInv : PinInv polling :=
  ⟨fun _ => rfl, fun _ _ _ h => absurd h.2 (by decide), fun _ _ _ => ⟨rfl, rfl⟩⟩

theorem polling_pollInv : PollInv polling := by
  refine ⟨fun c h => ?_, fun _ => ⟨rfl, rfl⟩, fun c a d _ h => ?_⟩
  · cases h
    exact .inr ⟨0x5A#8, rfl, .inl (by decide)⟩
  · have hc : polling.command = some (.write 0x1234#16 0x5A#8) := by decide
    rw [hc] at h
    rcases h with h | h <;> cases h
    exact .inl (by decide)

theorem completed_pinInv : PinInv completed :=
  ⟨fun _ => rfl, fun _ _ _ h => absurd h.2 (by decide), fun _ _ _ => ⟨rfl, rfl⟩⟩

theorem completed_pollInv : PollInv completed := by
  refine ⟨fun c h => ?_, fun _ => ⟨rfl, rfl⟩, fun c a d _ h => ?_⟩
  · cases h
    exact .inr ⟨0x5A#8, rfl, .inl (by decide)⟩
  · have hc : completed.command = some (.write 0x1234#16 0x5A#8) := by decide
    rw [hc] at h
    rcases h with h | h <;> cases h
    exact .inr ⟨rfl, by decide⟩

/-- WriteIsVisibleWhenItReturns. -/
theorem witness_write_visible :
    ∃ t, PinInv completed ∧ PollInv completed ∧ completed.fault = none ∧ completed.pollCtx ≠ none ∧
      (completed.command = some (.write 0x1234#16 0x5A#8) ∧ exec (.write 0x1234#16 0x5A#8) completed = .next t) ∧
      t.fault = none ∧ t.pollCtx = none ∧ addrRejected 0x9234#16 t = false ∧ chipAddr 0x9234#16 = chipAddr 0x1234#16 :=
  ⟨after (.write 0x1234#16 0x5A#8) completed, completed_pinInv, completed_pollInv, rfl, by decide,
    ⟨by decide, eq_next (by decide)⟩, by decide, by decide, by decide, by decide⟩

/-- `completed` with UPDATE in WRITE's place. -/
def completedUpdate : State := { completed with cmds := [0xA012345A#32] }

/-- WriteIsVisibleWhenItReturns, its second case. -/
theorem witness_update_visible :
    ∃ t, PinInv completedUpdate ∧ PollInv completedUpdate ∧ completedUpdate.fault = none ∧
      completedUpdate.pollCtx ≠ none ∧
      (completedUpdate.command = some (.update 0x1234#16 0x5A#8) ∧
        exec (.update 0x1234#16 0x5A#8) completedUpdate = .next t) ∧
      t.fault = none ∧ t.pollCtx = none ∧ addrRejected 0x9234#16 t = false := by
  refine ⟨after (.update 0x1234#16 0x5A#8) completedUpdate, ⟨fun _ => rfl,
    fun _ _ _ h => absurd h.2 (by decide), fun _ _ _ => ⟨rfl, rfl⟩⟩, ⟨fun c h => ?_, fun _ => ⟨rfl, rfl⟩, ?_⟩, rfl,
    by decide, ⟨by decide, eq_next (by decide)⟩, by decide, by decide, by decide⟩
  · cases h
    exact .inr ⟨0x5A#8, rfl, .inr (by decide)⟩
  · intro c a d _ h
    have hc : completedUpdate.command = some (.update 0x1234#16 0x5A#8) := by decide
    rw [hc] at h
    rcases h with h | h <;> cases h
    exact .inr ⟨rfl, by decide⟩

/-- WriteReturnsAfterChipCompletes, with k = 0 and k = 1 (V9.4 has k = 3), in BASE, and in HARDENED at the smallest limit. -/
theorem witness_write_polls :
    (polling.params.mode = .base ∧ polling.fault = none ∧ polling.refused = none ∧ polling.init = true ∧
      polling.lvl.sc = false ∧ polling.lvl.we = true ∧ polling.mem.wf = true ∧
      polling.command = some (.write 0x1234#16 0x5A#8) ∧
      polling.pollCtx = some { addr := 0x1234#16, expect := (0x5A#8).getLsbD 7, reads := 0 } ∧
      polling.chip = .writing (chipAddr 0x1234#16) 0x5A#8) ∧
      { polling with chipPlan := [true] }.chipPlan = List.replicate 0 false ++ true :: [] ∧
      { polling with chipPlan := [false, true] }.chipPlan = List.replicate 1 false ++ true :: [] ∧
      (let s := { polling with params := (hard 2).params }
       s.params.mode ≠ .base ∧ 0 + 1 < s.params.pollLimit) := by decide

/-- WriteReturnsUnderChipCompletes: CHIP_COMPLETES holds where the schedule completes the cycle at once (the other
hypotheses are those of `witness_write_polls`). -/
theorem witness_chip_completes : ChipCompletes { polling with chipPlan := [true] } := by
  have h1 : step { polling with chipPlan := [true] } = .next completed := by
    show Host.Outcome.next _ = _
    congr 1
  obtain ⟨u, h2, h3, hu⟩ : ∃ u, step completed = .next u ∧ step u = .next u ∧ u.chip = .idle := by
    have hf : (nextOf (step completed)).fault = none := by decide
    have hr : (nextOf (step completed)).refused = none := by decide
    have hc : (nextOf (step completed)).chip = .idle := by decide
    have hw : (nextOf (step completed)).fetch = none := by decide
    refine ⟨nextOf (step completed), eq_next (by decide), ?_, hc⟩
    generalize nextOf (step completed) = t at *
    simp [step, hf, hr, chipTurn_idle hc, blockStep, hw]
  have hstay (k : Nat) : core.run k u = .next u := by
    induction k with
    | zero => rfl
    | succ k ih => rw [run_succ h3]; exact ih
  intro n t hn ht
  rcases n with _ | _ | n
  · cases hn
    exact ⟨1, completed, run_succ h1, rfl⟩
  · rw [run_succ h1] at hn
    cases hn
    exact absurd rfl ht
  · rw [run_succ h1, run_succ h2, hstay n] at hn
    cases hn
    exact absurd hu ht

/-- UpdateIsIdempotent: both clauses, k = 0 and k = 2 (P1), in BASE, and in HARDENED at the smallest limit. -/
theorem witness_idempotent :
    let s := { ready with cmds := [0x00000000#32, 0xA00010AA#32, 0xA00010AA#32], mem := [(0x0010, 0xFF#8)] }
    (s.params.mode = .base ∧ addrRejected 0x0010#16 s = false ∧ s.fault = none ∧ s.refused = none ∧ s.init = true ∧
      s.lvl.sc = false ∧ s.lvl.we = true ∧ s.mem.wf = true ∧ s.pollCtx = none ∧ s.chip = .idle ∧ s.command = some (.update 0x0010#16 0xAA#8) ∧
      { s with pc := s.pc + 1 }.command = some (.update 0x0010#16 0xAA#8) ∧
      s.mem.read (chipAddr 0x0010#16).toNat ≠ 0xAA#8) ∧
      Memory.read [(0x0010, 0xAA#8)] (chipAddr 0x0010#16).toNat = 0xAA#8 ∧
      [true] = List.replicate 0 false ++ true :: [] ∧ [false, false, true] = List.replicate 2 false ++ true :: [] ∧
      ((hard 3).params.mode ≠ .base ∧ 2 < (hard 3).params.pollLimit ∧ addrRejected 0x0010#16 (hard 3) = false) := by
  decide

/-- FaultEntryIsPrecise. -/
theorem witness_fault : ∃ t, ready.fault = none ∧ exec .rdbyte ready = .next t ∧ t.fault ≠ none :=
  ⟨after .rdbyte ready, rfl, eq_next (by decide), by decide⟩

/-- PrimitiveFrames, OnlyPulsesStartWriteCycles (its second case) and OnlyReadsAndUpdateAppendResults. -/
theorem witness_primitive_frames :
    (∃ t, exec (.setaddr 0x7FFF#16 false) ready = .next t) ∧ (∃ t, exec .busin ready = .next t) ∧
      (∃ t, exec .busout driven = .next t) ∧ (∃ t, exec .rdbyte reading = .next t) ∧
      (∃ t, exec (.wrbyte 0xFF#8) driven = .next t) ∧ ∃ t, exec .pulsewe driven = .next t ∧ Instr.pulsewe ≠ .init :=
  ⟨⟨_, eq_next (by decide)⟩, ⟨_, eq_next (by decide)⟩, ⟨_, eq_next (by decide)⟩, ⟨_, eq_next (by decide)⟩,
    ⟨_, eq_next (by decide)⟩, _, eq_next (by decide), by decide⟩

/-- DeviceOpFrames, and the first half of ReadsNeverMutateTheChip. -/
theorem witness_device_frames :
    (∃ t, exec (.poll 0x7FFF#16 false) ready = .next t) ∧ (∃ t, exec (.read 0x7FFF#16) ready = .next t) ∧
      (∃ t, exec (.write 0x7FFF#16 0xFF#8) ready = .next t) ∧ ∃ t, exec (.update 0x7FFF#16 0xFF#8) ready = .next t :=
  ⟨⟨_, eq_next (by decide)⟩, ⟨_, eq_next (by decide)⟩, ⟨_, eq_next (by decide)⟩,
    _, eq_next (by decide)⟩

/-- StepRunsTheDecodedCommand: the chip Idle, and writing but not taking its turn. -/
theorem witness_step_runs :
    (let s := { ready with cmds := [0x00000000#32, 0x20000000#32] }
     s.fault = none ∧ s.refused = none ∧ s.cmds[s.pc]? = some 0x20000000#32 ∧ decode 0x20000000#32 = .ok .busin ∧
       s.chip = .idle) ∧
      (let s := { polling with chipPlan := [false] }
       s.cmds[s.pc]? = some 0x9012345A#32 ∧ s.chipTurn.1 = false ∧ s.chip ≠ .idle) := by decide

/-- ChipCompletionStoresOneByte. -/
theorem witness_chip_turn :
    let s := { polling with chipPlan := [true] }
    s.fault = none ∧ s.refused = none ∧ s.chip = .writing 0x1234#15 0x5A#8 ∧ s.chipPlan = true :: [] ∧ s.mem.wf = true := by
  decide

/-- NothingRunsAfterFaultOrRefusal, each clause. -/
theorem witness_stopped :
    (ready.raise .alreadyInitialized).fault = some .alreadyInitialized ∧
      ((ready.refuse (.illegalCommand 0xB0000000#32)).fault = none ∧
        (ready.refuse (.illegalCommand 0xB0000000#32)).refused = some (.illegalCommand 0xB0000000#32)) ∧
      (∃ t, exec .busin (ready.raise .alreadyInitialized) = .next t) ∧ (ready.raise .alreadyInitialized).fault ≠ none ∧
      { ready with pc := 0 }.isFinal = true ∧
      (polling.chip = .writing 0x1234#15 0x5A#8 ∧ { polling with pc := 1 }.isFinal = false) :=
  ⟨rfl, ⟨rfl, rfl⟩, ⟨_, eq_next (by decide)⟩, by decide, by decide, by decide, by decide⟩

/-- IllegalWordIsRefused, both reasons. -/
theorem witness_illegal :
    let s := { ready with cmds := [0x00000000#32, 0xB0000000#32] }
    s.fault = none ∧ s.refused = none ∧ s.chip = .idle ∧ s.chipTurn.1 = false ∧ s.cmds[s.pc]? = some 0xB0000000#32 ∧
      decode 0xB0000000#32 = .error (.reservedOp 0xB0000000#32) ∧
      decode 0x80FFFF01#32 = .error (.unusedNonzero 0x80FFFF01#32) := by decide

/-- EveryCommandHasOneWord at its last operation code and largest operands, and the row selected; both clauses of
EveryWordMatchesOneRowOrIsRefused where they meet (operation codes 0xA and 0xB, and a nonzero unused bit). -/
theorem witness_one_word :
    decode 0xA0FFFFFF#32 = .ok (.update 0xFFFF#16 0xFF#8) ∧ (opTable.filter fun r => r.selects 0xA0FFFFFF#32).length = 1 ∧
      ((Word.op 0xA0FFFFFF#32).toNat < 0xB ∧ Word.unusedZero 0xA0FFFFFF#32 = true) ∧
      ¬ (Word.op 0xB0000000#32).toNat < 0xB ∧ Word.unusedZero 0x40000001#32 = false := by decide

/-- The invariants, with a step: EveryStepKeepsPinInv, EveryStepKeepsPollInv, EveryStepKeepsMemoryAndConfiguration. -/
theorem witness_invariants :
    ∃ t, PinInv completed ∧ completed.busUsed = true ∧ completed.serialUsed = true ∧ PollInv completed ∧
      completed.mem.wf = true ∧ CfgInv completed ∧ step completed = .next t :=
  ⟨_, completed_pinInv, by decide, by decide, completed_pollInv, by decide, fun _ => by decide, eq_next (by decide)⟩

/-- EveryStepKeepsPollBound, one read below the limit. -/
theorem witness_poll_bound :
    ∃ t, (hard 1).params.wellFormed = true ∧ PollBound { completed with params := (hard 1).params } ∧
      step { completed with params := (hard 1).params } = .next t :=
  ⟨_, by decide, fun c _ _ h => by cases h; decide, eq_next (by decide)⟩

end Sys2Proof.Tests
end

section
/-! PROOFS. The scope statements (00_scope.md): what one step runs. -/

namespace Sys2Proof.Machine

/-- The command at `pc` is what the word there decodes to (00_scope.md R13). -/
theorem command_of_decode {s : State} {w : Word} {i : Instr} (hw : s.cmds[s.pc]? = some w) (hd : decode w = .ok i) :
    s.command = some i := by
  simp [State.command, State.fetch, hw, hd, Except.toOption]

/-- Settles O48: `step_command` wherever the chip takes no turn, and an Idle chip takes none and leaves the state as it is. -/
theorem stepRunsTheDecodedCommand : Obligations.StepRunsTheDecodedCommand := by
  intro s w i hf hr hw hd
  have hstep : s.chipTurn.1 = false → step s = exec i s.chipTurn.2 := step_command hf hr (command_of_decode hw hd)
  refine ⟨hstep, fun hidle => ?_⟩
  have hturn : s.chipTurn = (false, s) := chipTurn_idle hidle
  simpa [hturn] using hstep

end Sys2Proof.Machine
end

section
/-! SUPPORT. What only INIT can change: the frame that every other command, and a second INIT, shares. -/

namespace Sys2Proof.Machine

/-- INIT before construction with a configuration that is not valid records ConfigurationError (70_reset_and_hazards.md R250). -/
theorem exec_init_invalid {s : State} (hi : s.init = false) (hv : s.params.pins.valid = false) :
    exec .init s = .next (s.raise (.configurationError s.params.pins)) := by
  simp [exec, execInit, hi, hv]

/-- INIT after construction records AlreadyInitialized (70_reset_and_hazards.md R251). -/
theorem exec_init_again {s : State} (hi : s.init = true) : exec .init s = .next (s.raise .alreadyInitialized) := by
  simp [exec, execInit, hi]

/-- The parameters, the command list, what INIT constructs, a recorded refusal, the array and the chip's schedule are the same
after a command that does not construct. -/
theorem effect_frame {i : Instr} {s t : State} (h : Effect i s t) (hc : i ≠ .init ∨ s.init = true) :
    t = { t with
      params := s.params, cmds := s.cmds, cfg := s.cfg, init := s.init, ctrlMode := s.ctrlMode, refused := s.refused
      mem := s.mem, chipPlan := s.chipPlan } := by
  cases h with
  | constructed hi hv => simp [hi] at hc
  | pulsed hi hb hq hidle => rw [pulse_eq]; rfl
  | pollBegun hi hp hs => rw [pollEffect_frame (fun _ => rfl) hs]
  | polled hi hp hs => rw [pollEffect_frame (fun _ => rfl) hs]
  | writeBegun hi hp hs => rw [(writeEffect_frame hs).1]
  | writePolled hi hp hs => rw [pollEffect_frame (fun _ => rfl) hs]
  | updateBegun hi hp n hs => rw [(writeEffect_frame hs).1]; rfl
  | updatePolled hi hp hs => rw [pollEffect_frame (fun _ => rfl) hs]
  | _ => rfl

/-- No command changes what a construction fixed, unless it constructs. -/
theorem exec_keeps_construction {i : Instr} {s t : State} (h : exec i s = .next t) (hc : i ≠ .init ∨ s.init = true) :
    t.cfg = s.cfg ∧ t.init = s.init ∧ t.ctrlMode = s.ctrlMode := by
  rw [effect_frame (exec_effect h) hc]
  exact ⟨rfl, rfl, rfl⟩

/-- No step changes what a construction fixed. -/
theorem step_keeps_construction {s t : State} (hi : s.init = true) (h : step s = .next t) :
    t.cfg = s.cfg ∧ t.init = s.init ∧ t.ctrlMode = s.ctrlMode := by
  obtain ⟨-, -, h⟩ := step_effect h
  cases h with
  | ran n p i t hd he =>
    have hkept := exec_keeps_construction he (.inr hi)
    exact hkept
  | _ => exact ⟨rfl, rfl, rfl⟩

end Sys2Proof.Machine
end

section
/-! SUPPORT. The pulses among the events of a command, and what a command does to the chip. -/

namespace Sys2Proof.Machine

@[simp] theorem pulses_nil : pulses [] = 0 := rfl

@[simp] theorem pulses_cons (e : Event) (l : List Event) :
    pulses (e :: l) = pulses l + if e = .pin .we false then 1 else 0 := by
  simp [pulses, List.count_cons]

/-- From `s` to `t` no write cycle has started: the chip, the interrupt flag and the number of pulses are the same. -/
def LeavesChip (s t : State) : Prop := t.chip = s.chip ∧ t.ie = s.ie ∧ pulses t.trace = pulses s.trace

/-- From `s` to `t` an Idle chip has started to write the driven byte at the latched address, after one pulse. -/
def StartsWrite (s t : State) : Prop :=
  s.chip = .idle ∧ t.chip = .writing (chipAddr t.q) t.dout ∧ t.fault = s.fault ∧ pulses t.trace = pulses s.trace + 1

theorem pollEffect_leavesChip {c : PollCtx} {last : State → State} {s t : State}
    (hl : ∀ x : State, last x = { x with out := (last x).out }) (h : PollEffect c last s t) : LeavesChip s t := by
  rw [pollEffect_frame hl h]
  exact ⟨rfl, rfl, by simp⟩

theorem readState_leavesChip (a : Half) (n : Nat) (s : State) : LeavesChip s (readState a n s) :=
  ⟨rfl, rfl, by simp [readState]⟩

/-- The first step of a write leaves the chip, with a fault, or starts the write cycle. -/
theorem writeEffect_chip {a : Half} {d : Byte} {s t : State} (h : WriteEffect a d s t) :
    LeavesChip s t ∨ StartsWrite s t := by
  rcases writeEffect_cases h with ⟨f, -, -, hie, hchip, -, hpulses⟩ | ⟨hidle, -, rfl⟩
  · exact .inl ⟨hchip, hie, hpulses⟩
  · have haddr : chipAddr (framed s (frame a false)) = chipAddr a := chipAddr_framed s a false
    exact .inr ⟨hidle, by simp [writeStarted, writeDriven, haddr], rfl, by simp [writeStarted]⟩

/-- A command that does not construct leaves the chip, or is PULSEWE, WRITE or UPDATE and starts a write cycle. -/
theorem effect_chip {i : Instr} {s t : State} (h : Effect i s t) (hi : i ≠ .init) :
    LeavesChip s t ∨
      ((i = .pulsewe ∨ (∃ a d, i = .write a d) ∨ ∃ a d, i = .update a d) ∧ StartsWrite s t) := by
  cases h with
  | early f => exact .inl ⟨rfl, rfl, rfl⟩
  | constructed => exact absurd rfl hi
  | addressed => exact .inl ⟨rfl, rfl, by simp [addressedState]⟩
  | addressContended => exact .inl ⟨rfl, rfl, by simp [latchedState]⟩
  | busIn => exact .inl ⟨rfl, rfl, by simp⟩
  | busOut => exact .inl ⟨rfl, rfl, by simp⟩
  | busOutContended => exact .inl ⟨rfl, rfl, by simp⟩
  | byteRead => exact .inl ⟨rfl, rfl, by simp⟩
  | byteDriven => exact .inl ⟨rfl, rfl, by simp⟩
  | pulsed hinit hb hq hidle =>
    rw [pulse_eq]
    exact .inr ⟨.inl rfl, hidle, rfl, rfl, by simp⟩
  | read hinit n => exact .inl (readState_leavesChip _ n s)
  | pollBegun hinit hp hs =>
    have hpoll := pollEffect_leavesChip (fun _ => rfl) hs
    exact .inl hpoll
  | polled hinit hp hs => exact .inl (pollEffect_leavesChip (fun _ => rfl) hs)
  | writeBegun hinit hp hs => exact (writeEffect_chip hs).imp_right fun h => ⟨.inr (.inl ⟨_, _, rfl⟩), h⟩
  | writePolled hinit hp hs => exact .inl (pollEffect_leavesChip (fun _ => rfl) hs)
  | updateEqual hinit hp n => exact .inl (readState_leavesChip _ n s)
  | @updateBegun a d s t hinit hp n hs =>
    obtain ⟨-, -, hread⟩ := readState_leavesChip a n s
    rcases writeEffect_chip hs with ⟨hchip, hie, hpulses⟩ | ⟨hidle, hchip, hfault, hpulses⟩
    · exact .inl ⟨hchip, hie, hpulses.trans hread⟩
    · exact .inr ⟨.inr (.inr ⟨a, d, rfl⟩), hidle, hchip, hfault, by rw [hpulses, hread]⟩
  | updatePolled hinit hp hs => exact .inl (pollEffect_leavesChip (fun _ => rfl) hs)

end Sys2Proof.Machine
end

section
/-! SUPPORT. The three invariants of the pins (10_state.md R39): the ways a next state can meet them, and that every command
keeps them. -/

namespace Sys2Proof.Machine

/-- A recorded fault leaves only /WE to account for. -/
theorem pinInv_of_fault {t : State} {f : Fault} (hf : t.fault = some f) (hw : t.init = true → t.lvl.we = true) : PinInv t where
  weHigh := hw
  busFree _ hn := by simp [hf] at hn
  serialLow _ hn := by simp [hf] at hn

/-- Where the serial lines are low and the bus is free, it does not matter which commands have run. -/
theorem pinInv_of_settled {t : State} (hw : t.lvl.we = true) (hsc : t.lvl.sc = false) (hsl : t.lvl.sl = false)
    (hb : ¬ (t.busDir ≠ .input ∧ t.q[15] = false)) : PinInv t where
  weHigh _ := hw
  busFree _ _ _ := hb
  serialLow _ _ _ := ⟨hsc, hsl⟩

/-- With the levels kept and no latch pulse, only the bus is left to account for. -/
theorem pinInv_of_levels_kept {s t : State} {l : List Event} (h : PinInv s) (hi : s.init = true) (hf : s.fault = none)
    (hlvl : t.lvl = s.lvl) (ht : t.trace = s.trace ++ l) (hl : l.any Event.latches = false)
    (hb : t.busUsed = true → ¬ (t.busDir ≠ .input ∧ t.q[15] = false)) : PinInv t where
  weHigh _ := hlvl ▸ h.weHigh hi
  busFree _ _ := hb
  serialLow _ _ hu := by
    rw [serialUsed_append ht, hl, Bool.or_false] at hu
    exact hlvl ▸ h.serialLow hi hf hu

/-- Events that neither latch nor turn the bus to output are no use of the bus. -/
theorem busUsed_of_append {s t : State} {l : List Event} (ht : t.trace = s.trace ++ l) (hl : l.any Event.latches = false)
    (ho : l.any Event.turnsOut = false) (hu : t.busUsed = true) : s.busUsed = true := by
  rwa [busUsed_append ht, hl, ho, Bool.or_false, Bool.or_false] at hu

/-- Construction drives /WE high and starts the trace anew. -/
theorem pinInv_construct (s : State) : PinInv s.construct.advance where
  weHigh _ := rfl
  busFree _ _ hu := by simp [State.busUsed, State.construct, Event.latches, Event.turnsOut] at hu
  serialLow _ _ hu := by simp [State.serialUsed, State.construct, Event.latches] at hu

/-- A poll iteration leaves the bus in input mode and the serial lines low. -/
theorem pollEffect_pinInv {c : PollCtx} {last : State → State} {s t : State}
    (hl : ∀ x : State, last x = { x with out := (last x).out }) (hw : s.lvl.we = true) (h : PollEffect c last s t) :
    PinInv t := by
  cases h with
  | matched n h => rw [hl]; exact pinInv_of_settled hw rfl rfl fun ⟨hdir, _⟩ => hdir rfl
  | timeout n h hm hl => exact pinInv_of_fault rfl fun _ => hw
  | missed n h hl => exact pinInv_of_settled hw rfl rfl fun ⟨hdir, _⟩ => hdir rfl

/-- A write leaves a fault, or the chip's outputs off and the serial lines low. -/
theorem writeEffect_pinInv {a : Half} {d : Byte} {s t : State} (hw : s.lvl.we = true) (h : WriteEffect a d s t) :
    PinInv t := by
  rcases writeEffect_cases h with ⟨f, hf, hwe, -⟩ | ⟨-, h15, rfl⟩
  · exact pinInv_of_fault hf fun _ => hwe.trans hw
  · exact pinInv_of_settled rfl rfl rfl fun ⟨_, htop⟩ => Bool.false_ne_true (htop.symm.trans h15)

/-- Every command keeps the invariants of the pins. -/
theorem effect_pinInv {i : Instr} {s t : State} (h : Effect i s t) (hs : PinInv s) (hf : s.fault = none) : PinInv t := by
  cases h with
  | early f => exact pinInv_of_fault rfl hs.weHigh
  | constructed => exact pinInv_construct s
  | addressed hi hc =>
    exact pinInv_of_settled (hs.weHigh hi) rfl rfl fun ⟨hdir, htop⟩ => hc ⟨hdir, htop, hs.weHigh hi⟩
  | addressContended => exact pinInv_of_fault rfl hs.weHigh
  | busIn hi => exact pinInv_of_levels_kept hs hi hf rfl rfl rfl fun _ ⟨hdir, _⟩ => hdir rfl
  | busOut hi hc => exact pinInv_of_levels_kept hs hi hf rfl rfl rfl fun _ ⟨_, htop⟩ => hc ⟨htop, hs.weHigh hi⟩
  | busOutContended => exact pinInv_of_fault rfl hs.weHigh
  | byteRead hi n =>
    exact pinInv_of_levels_kept hs hi hf rfl rfl rfl fun hu => hs.busFree hi hf (busUsed_of_append rfl rfl rfl hu)
  | byteDriven hi hb =>
    exact pinInv_of_levels_kept hs hi hf rfl rfl rfl fun hu => hs.busFree hi hf (busUsed_of_append rfl rfl rfl hu)
  | pulsed hi hb hq hidle =>
    rw [pulse_eq]
    have hlvl : { s.lvl with we := true } = s.lvl := by rw [← hs.weHigh hi]
    exact pinInv_of_levels_kept hs hi hf hlvl rfl rfl fun _ ⟨_, htop⟩ => Bool.false_ne_true (htop.symm.trans hq)
  | read hi n => exact pinInv_of_settled (hs.weHigh hi) rfl rfl fun ⟨hdir, _⟩ => hdir rfl
  | pollBegun hi hp h => exact pollEffect_pinInv (fun _ => rfl) (by exact hs.weHigh hi) h
  | polled hi hp h => exact pollEffect_pinInv (fun _ => rfl) (hs.weHigh hi) h
  | writeBegun hi hp h => exact writeEffect_pinInv (hs.weHigh hi) h
  | writePolled hi hp h => exact pollEffect_pinInv (fun _ => rfl) (hs.weHigh hi) h
  | updateEqual hi hp n => exact pinInv_of_settled (hs.weHigh hi) rfl rfl fun ⟨hdir, _⟩ => hdir rfl
  | updateBegun hi hp n h => exact writeEffect_pinInv (by exact hs.weHigh hi) h
  | updatePolled hi hp h => exact pollEffect_pinInv (fun _ => rfl) (hs.weHigh hi) h

/-- The chip's turn, a wait and a recorded refusal touch nothing the invariants speak of. -/
theorem stepEffect_pinInv {s t : State} (h : StepEffect s t) (hs : PinInv s) (hf : s.fault = none) : PinInv t := by
  cases h with
  | completed => exact ⟨hs.weHigh, hs.busFree, hs.serialLow⟩
  | waited => exact ⟨hs.weHigh, hs.busFree, hs.serialLow⟩
  | refused => exact ⟨hs.weHigh, hs.busFree, hs.serialLow⟩
  | ran n p i t hd he => exact effect_pinInv (exec_effect he) ⟨hs.weHigh, hs.busFree, hs.serialLow⟩ hf

end Sys2Proof.Machine
end

section
/-! PROOFS. The statements of the state (10_state.md). -/

namespace Sys2Proof.Machine

/-- Settles O56: `stepEffect_pinInv`, a case for each next state of a step. -/
theorem everyStepKeepsPinInv : Obligations.EveryStepKeepsPinInv := by
  intro s t hs h
  obtain ⟨hf, -, h⟩ := step_effect h
  exact stepEffect_pinInv h hs hf

/-- The data lines are the pins DLO..DLO+7 (10_state.md R21). -/
theorem mem_dataPins {c : PinConfig} {p : Nat} :
    p ∈ (List.finRange 8).map c.dataPin ↔ c.dlo ≤ p ∧ p ≤ c.dlo + 7 := by
  simp only [List.mem_map, List.mem_finRange, true_and, PinConfig.dataPin]
  constructor
  · rintro ⟨i, rfl⟩; omega
  · rintro ⟨h1, h2⟩; exact ⟨⟨p - c.dlo, by omega⟩, by simp only []; omega⟩

/-- The data lines are eight different pins. -/
theorem dataPins_nodup (c : PinConfig) : ((List.finRange 8).map c.dataPin).Nodup := by
  refine (List.nodup_finRange 8).map fun i j h => Fin.ext ?_
  simpa [PinConfig.dataPin] using h

/-- Validity with the eight data lines as a span (10_state.md R22). -/
theorem valid_iff (c : PinConfig) : c.valid = true ↔
    c.dhi = c.dlo + 7 ∧ [c.sd, c.sc, c.sl, c.we].Nodup ∧ ∀ p ∈ [c.sd, c.sc, c.sl, c.we], p < c.dlo ∨ c.dlo + 7 < p := by
  have hspan : c.spanOk = true ↔ c.dhi = c.dlo + 7 := beq_iff_eq
  have houtside (p : Nat) : (∀ q ∈ (List.finRange 8).map c.dataPin, p ≠ q) ↔ p < c.dlo ∨ c.dlo + 7 < p := by
    rw [← not_iff_not]
    simp only [not_forall, exists_prop, Decidable.not_not, exists_eq_right', mem_dataPins]
    omega
  simp only [PinConfig.valid, PinConfig.physicalPins, Bool.and_eq_true, decide_eq_true_eq, hspan, List.nodup_append,
    dataPins_nodup, true_and, houtside]

/-- Settles O4: `valid_iff`, and INIT's check of the configuration. -/
theorem configurationValidity : Obligations.ConfigurationValidity :=
  ⟨valid_iff, fun _ => exec_init_invalid⟩

/-- Settles O5: the frames of a command and of a step, and a second INIT. -/
theorem configurationNeverMutated : Obligations.ConfigurationNeverMutated := by
  refine ⟨fun i s t hi h => ?_, fun s t hi h => ?_, fun s hi => ⟨_, exec_init_again hi, rfl, rfl⟩⟩
  · obtain ⟨hcfg, -, -⟩ := exec_keeps_construction h (.inl hi)
    exact hcfg
  · obtain ⟨hcfg, hinit, hmode⟩ := step_keeps_construction hi h
    exact ⟨hcfg, hinit.trans hi, hmode⟩

/-- Settles O46: `effect_chip`. -/
theorem onlyPulsesStartWriteCycles : Obligations.OnlyPulsesStartWriteCycles :=
  fun _ _ _ hi h => effect_chip (exec_effect h) hi

/-- A poll iteration leaves the results as they were, but for what its command does when the poll is over. -/
theorem pollEffect_out {c : PollCtx} {last : State → State} {s t : State} (h : PollEffect c last s t) :
    t.out = s.out ∨ ∃ u : State, u.out = s.out ∧ t.out = (last u).out := by
  rcases pollEffect_cases h with ⟨n, -, rfl⟩ | ⟨-, hout, -⟩
  · exact .inr ⟨{ pollRead c s n with pollCtx := none }, rfl, rfl⟩
  · exact .inl hout

/-- The poll of POLL and WRITE appends nothing. -/
theorem pollEffect_keeps_out {c : PollCtx} {s t : State} (h : PollEffect c (fun x => x) s t) : t.out = s.out :=
  (pollEffect_out h).elim id fun ⟨_, hu, ht⟩ => ht.trans hu

/-- The first step of a write appends nothing. -/
theorem writeEffect_keeps_out {a : Half} {d : Byte} {s t : State} (h : WriteEffect a d s t) : t.out = s.out := by
  rw [(writeEffect_frame h).1]

/-- Settles O47: the results after each next state of a command. -/
theorem onlyReadsAndUpdateAppendResults : Obligations.OnlyReadsAndUpdateAppendResults := by
  intro i s t h
  cases exec_effect h with
  | constructed => exact .inr (.inr (.inr ⟨rfl, rfl⟩))
  | byteRead => exact .inr (.inl ⟨_, rfl, .inl rfl⟩)
  | pulsed => rw [pulse_eq]; exact .inl rfl
  | read => exact .inr (.inl ⟨_, rfl, .inr ⟨_, rfl⟩⟩)
  | pollBegun hi hp hs =>
    have hout := pollEffect_keeps_out hs
    exact .inl hout
  | polled hi hp hs => exact .inl (pollEffect_keeps_out hs)
  | writeBegun hi hp hs => exact .inl (writeEffect_keeps_out hs)
  | writePolled hi hp hs => exact .inl (pollEffect_keeps_out hs)
  | updateEqual => exact .inr (.inr (.inl ⟨_, rfl, .inl rfl, _, _, rfl⟩))
  | updateBegun hi hp n hs =>
    have hout := writeEffect_keeps_out hs
    exact .inl hout
  | updatePolled hi hp hs =>
    rcases pollEffect_out hs with hout | ⟨u, hu, hout⟩
    · exact .inl hout
    · exact .inr (.inr (.inl ⟨0x01#8, by rw [hout, answer_out, hu], .inr rfl, _, _, rfl⟩))
  | _ => exact .inl rfl

end Sys2Proof.Machine
end

section
/-! SUPPORT. What a command does to the chip array and the configuration, the chip's turn, a READ of an Idle chip, and how the
poll of a write ends. -/

namespace Sys2Proof.Machine

/-- A command stores no byte of the array; it keeps the configuration, or constructs with a valid one. -/
theorem effect_construction {i : Instr} {s t : State} (h : Effect i s t) :
    (t.mem = s.mem ∧ t.cfg = s.cfg ∧ t.init = s.init) ∨ (s.params.pins.valid = true ∧ t = s.construct.advance) := by
  by_cases hc : i ≠ .init ∨ s.init = true
  · rw [effect_frame h hc]
    exact .inl ⟨rfl, rfl, rfl⟩
  · obtain rfl : i = .init := by simpa using mt Or.inl hc
    cases h with
    | early f => exact .inl ⟨rfl, rfl, rfl⟩
    | constructed hi hv => exact .inr ⟨hv, rfl⟩

theorem effect_mem {i : Instr} {s t : State} (h : Effect i s t) : t.mem = s.mem := by
  rcases effect_construction h with ⟨hmem, -, -⟩ | ⟨-, rfl⟩
  · exact hmem
  · rfl

/-- Only a construction makes a configuration count, and it checks it first (10_state.md R22). -/
theorem effect_cfgInv {i : Instr} {s t : State} (h : Effect i s t) (hs : CfgInv s) : CfgInv t := by
  intro hi
  rcases effect_construction h with ⟨-, hcfg, hinit⟩ | ⟨hv, rfl⟩
  · rw [hcfg]
    exact hs (hinit ▸ hi)
  · exact hv

/-- Only the chip's completion stores a byte, at an address of the array (20_memory.md R50, R57). -/
theorem stepEffect_mem_wf {s t : State} (h : StepEffect s t) (hs : s.mem.wf = true) : t.mem.wf = true := by
  cases h with
  | completed n p a d hc => exact memory_write_wf hs a.isLt
  | waited => exact hs
  | refused => exact hs
  | ran n p i t hd he => rw [effect_mem (exec_effect he)]; exact hs

theorem stepEffect_cfgInv {s t : State} (h : StepEffect s t) (hs : CfgInv s) : CfgInv t := by
  cases h with
  | ran n p i t hd he => exact effect_cfgInv (exec_effect he) hs
  | _ => exact hs

/-- The step in which a writing chip takes its scheduled turn (20_memory.md R57). -/
theorem step_completes {s : State} {a : ChipAddr} {d : Byte} {rest : List Bool} (hf : s.fault = none)
    (hr : s.refused = none) (hc : s.chip = .writing a d) (hp : s.chipPlan = true :: rest) :
    step s = .next { s with chip := .idle, mem := s.mem.write a.toNat d, chipPlan := rest } := by
  simp [step, hf, hr, chipTurn_planned hc hp, State.chipComplete, hc]

/-- With SC low, /WE high and the chip Idle, READ appends the stored byte (44_device_ops.md R191). -/
theorem exec_read_idle {a : Half} {s : State} (hi : s.init = true) (ha : addrRejected a s = false)
    (hsc : s.lvl.sc = false) (hwe : s.lvl.we = true) (hc : s.chip = .idle) :
    exec (.read a) s = .next ((readDone a s).answer (s.mem.read (chipAddr a).toNat)).advance := by
  show ifInitialized _ _ (ifAddressed _ _ _) = _
  rw [ifInitialized_pass hi, ifAddressed_pass ha, readCore_idle hsc hwe hc, finish_done]

/-- The poll in flight at a WRITE or UPDATE waits for that command's byte at its address. -/
theorem pollInv_awaits {s : State} {a : Half} {d : Byte} {c : PollCtx} (h : PollInv s) (hp : s.pollCtx = some c)
    (hc : s.command = some (.write a d) ∨ s.command = some (.update a d)) : c.addr = a ∧ c.expect = d[7] := by
  rcases h.owned c hp with ho | ⟨d', he, ho | ho⟩
  · simp [ho] at hc
  · simp only [ho, Option.some.injEq, Instr.write.injEq, reduceCtorEq, or_false] at hc
    exact ⟨hc.1, hc.2 ▸ he⟩
  · simp only [ho, Option.some.injEq, Instr.update.injEq, reduceCtorEq, false_or] at hc
    exact ⟨hc.1, hc.2 ▸ he⟩

/-- A poll in flight finds SC low and /WE high: the serial lines have been used. -/
theorem pollInv_lines {s : State} (hpin : PinInv s) (hpoll : PollInv s) (hf : s.fault = none) (hp : s.pollCtx ≠ none) :
    s.init = true ∧ s.lvl.sc = false ∧ s.lvl.we = true := by
  obtain ⟨hi, hused⟩ := hpoll.used hp
  obtain ⟨hsc, -⟩ := hpin.serialLow hi hf hused
  exact ⟨hi, hsc, hpin.weHigh hi⟩

/-- A chip still writing answers the complement of the awaited bit, so a poll that reads the bit itself finds the byte
stored (20_memory.md R55). -/
theorem pollInv_stored {s : State} {a : Half} {d : Byte} {c : PollCtx} (hpin : PinInv s) (hpoll : PollInv s)
    (hf : s.fault = none) (hp : s.pollCtx = some c)
    (hc : s.command = some (.write a d) ∨ s.command = some (.update a d)) (hread : (pollByte c s)[7] = c.expect) :
    s.chip = .idle ∧ s.mem.read (chipAddr a).toNat = d := by
  refine (hpoll.tracked c a d hp hc).resolve_left fun hwriting => ?_
  obtain ⟨haddr, hexpect⟩ := pollInv_awaits hpoll hp hc
  obtain ⟨-, hsc, hwe⟩ := pollInv_lines hpin hpoll hf (by simp [hp])
  have hecho : s.echo c.addr = some (!d[7]) := by simp [State.echo, hwriting, haddr]
  rw [pollByte_echo hsc hwe hecho, hexpect] at hread
  exact Bool.not_ne_self _ hread

/-- The poll of a WRITE or UPDATE that is over: its last iteration read the awaited bit. -/
theorem writePoll_returned {s t : State} {a : Half} {d : Byte} {c : PollCtx} (hi : s.init = true)
    (hp : s.pollCtx = some c) (h : exec (.write a d) s = .next t ∨ exec (.update a d) s = .next t)
    (ht : t.pollCtx = none) :
    (pollByte c s)[7] = c.expect ∧
      ∃ n out, t = { pollRead c s n with pollCtx := none, out := out, pc := s.pc + 1 } := by
  rw [exec_write_inflight hi hp, exec_update_inflight hi hp] at h
  rcases h with h | h
  all_goals
    rcases pollEffect_cases (pollStep_effect h) with ⟨n, hread, rfl⟩ | ⟨-, -, hmiss, -⟩
    · exact ⟨hread, n, _, rfl⟩
    · simp [hmiss] at ht

end Sys2Proof.Machine
end

section
/-! PROOFS. The statements of the chip array (20_memory.md). -/

namespace Sys2Proof.Machine

/-- Settles O59: `stepEffect_mem_wf` and `stepEffect_cfgInv`, a case for each next state of a step. -/
theorem everyStepKeepsMemoryAndConfiguration : Obligations.EveryStepKeepsMemoryAndConfiguration := by
  intro s t h
  obtain ⟨-, -, h⟩ := step_effect h
  exact ⟨stepEffect_mem_wf h, stepEffect_cfgInv h⟩

/-- Settles O38: the poll ends on the awaited bit, which only the stored byte can give, and the bus is left as a READ
needs it. -/
theorem writeIsVisibleWhenItReturns : Obligations.WriteIsVisibleWhenItReturns := by
  intro s t a d hpin hpoll hf hp h _ ht
  obtain ⟨c, hc⟩ := Option.ne_none_iff_exists'.mp hp
  obtain ⟨hi, hsc, hwe⟩ := pollInv_lines hpin hpoll hf hp
  obtain ⟨hread, n, out, rfl⟩ := writePoll_returned hi hc (h.imp And.right And.right) ht
  obtain ⟨hidle, hstored⟩ := pollInv_stored hpin hpoll hf hc (h.imp And.left And.left) hread
  refine ⟨hidle, hstored, fun b hb ha => ⟨_, exec_read_idle hi ha rfl hwe hidle, ?_⟩⟩
  rw [hb]
  exact congrArg (fun v => out ++ [v]) hstored

/-- Settles O49: `step_completes`, and the laws of a read after a write. -/
theorem chipCompletionStoresOneByte : Obligations.ChipCompletionStoresOneByte := by
  intro s a d rest hf hr hc hp hm
  exact ⟨s.mem.write a.toNat d, step_completes hf hr hc hp, memory_read_write_same hm,
    fun _ hx => memory_read_write_other hx⟩

end Sys2Proof.Machine
end

section
/-! SUPPORT. The bits of a frame (30_encoding.md R80, R81, R85). -/

namespace Sys2Proof.Machine

theorem chipAddr_getLsbD (a : Half) {k : Nat} (hk : k < 15) : (chipAddr a).getLsbD k = a.getLsbD k := by
  simp [chipAddr, hk]

/-- Bits 14..0 of a frame are the address bits (30_encoding.md R80). -/
theorem frame_getLsbD (a : Half) (oe : Bool) {k : Nat} (hk : k < 15) : (frame a oe).getLsbD k = a.getLsbD k := by
  rw [← chipAddr_getLsbD _ hk, chipAddr_frame, chipAddr_getLsbD _ hk]

/-- Frame 1 is the high byte of the frame word (30_encoding.md R81). -/
theorem frameHigh_getLsbD (f : Half) {k : Nat} (hk : k < 8) : (frameHigh f).getLsbD k = f.getLsbD (k + 8) := by
  simp [frameHigh, hk, Nat.add_comm]

/-- Frame 2 is the low byte of the frame word (30_encoding.md R81). -/
theorem frameLow_getLsbD (f : Half) {k : Nat} (hk : k < 8) : (frameLow f).getLsbD k = f.getLsbD k := by
  simp [frameLow, hk]

/-- `decodeFrame` reads a latched word as the chip does: the address of 10_state.md R31, and /OE turned over. -/
theorem decodeFrame_eq (f : Half) : decodeFrame f = (BitVec.zeroExtend 16 (chipAddr f), !f[15]) := rfl

theorem zeroExtend_chipAddr_getLsbD (a : Half) (k : Nat) :
    (BitVec.zeroExtend 16 (chipAddr a)).getLsbD k = (decide (k < 15) && a.getLsbD k) := by
  by_cases hk : k < 15
  · rw [BitVec.zeroExtend, BitVec.getLsbD_setWidth, chipAddr_getLsbD a hk]
    simp [hk, Nat.lt_succ_of_lt hk]
  · have hge : (chipAddr a).getLsbD k = false := BitVec.getLsbD_of_ge _ k (by omega)
    simp [hk, hge]

/-- An operand in the chip's range is the address the chip sees. -/
theorem zeroExtend_chipAddr {a : Half} (ha : a.toNat ≤ 0x7FFF) : BitVec.zeroExtend 16 (chipAddr a) = a := by
  apply BitVec.eq_of_toNat_eq
  simp [chipAddr]
  omega

end Sys2Proof.Machine
end

section
/-! SUPPORT. What the decoder accepts, and the fields a command's word has (30_encoding.md R90 to R93). -/

namespace Sys2Proof

/-- A word decodes to the command its operation code and fields spell, where every unused field is zero. -/
theorem decode_eq_ok_iff {w : Word} {i : Instr} :
    decode w = .ok i ↔ instrOf w.op w.flag w.addr w.data = some i ∧ w.unusedZero = true := by
  unfold decode
  cases instrOf w.op w.flag w.addr w.data <;> cases w.unusedZero <;> simp

/-- The operation codes below 0xB spell a command, the reserved ones none (30_encoding.md R92). -/
theorem instrOf_isSome (op : BitVec 4) (f : BitVec 1) (a : Half) (d : Byte) :
    (instrOf op f a d).isSome = true ↔ op.toNat < 0xB := by
  unfold instrOf
  split
  case h_12 => simp_all; omega
  all_goals simp [*]

/-- The words that decode are those with a defined operation code and zero in every unused field. -/
theorem exists_decode_iff {w : Word} : (∃ i, decode w = .ok i) ↔ w.op.toNat < 0xB ∧ w.unusedZero = true := by
  simp only [decode_eq_ok_iff, exists_and_right, ← Option.isSome_iff_exists, instrOf_isSome]

/-- Every command's word carries its operation code, which is defined, and zero in every unused field. -/
theorem fieldUse (i : Instr) : Laws.FieldUse.Statement i :=
  match i with
  | .init => Laws.FieldUse.init
  | .setaddr a oe => Laws.FieldUse.setaddr a oe
  | .busin => Laws.FieldUse.busin
  | .busout => Laws.FieldUse.busout
  | .rdbyte => Laws.FieldUse.rdbyte
  | .wrbyte d => Laws.FieldUse.wrbyte d
  | .pulsewe => Laws.FieldUse.pulsewe
  | .poll a e => Laws.FieldUse.poll a e
  | .read a => Laws.FieldUse.read a
  | .write a d => Laws.FieldUse.write a d
  | .update a d => Laws.FieldUse.update a d

/-- A flag bit is set iff the flag is (30_encoding.md R93). -/
theorem ofBool_beq_one (b : Bool) : (BitVec.ofBool b == 1#1) = b := by cases b <;> rfl

/-- The fields of a command's word spell the command. -/
theorem instrOf_encode (i : Instr) :
    instrOf (Word.op (encode i)) (Word.flag (encode i)) (Word.addr (encode i)) (Word.data (encode i)) = some i := by
  cases i with
  | setaddr a oe => simp [encode, instrOf, ofBool_beq_one]
  | poll a e => simp [encode, instrOf, ofBool_beq_one]
  | _ => simp [encode, instrOf]

/-- The word of the command that some fields spell has these fields, but zero where the command does not use them. -/
theorem encode_instrOf {op : BitVec 4} {f : BitVec 1} {a : Half} {d : Byte} {i : Instr} (h : instrOf op f a d = some i) :
    encode i = packWord op (usesFlag op && f == 1#1) (if usesAddr op then a else 0#16) (if usesData op then d else 0#8) := by
  have hop {n : Nat} (hn : op.toNat = n) : op = BitVec.ofNat 4 n := by rw [← hn, BitVec.ofNat_toNat, BitVec.setWidth_eq]
  unfold instrOf at h
  split at h
  case h_12 => cases h
  all_goals
    rename_i hn
    obtain rfl := hop hn
    cases h
    rfl

/-- The command that some fields spell has the operation code among them. -/
theorem instrOf_opcode {op : BitVec 4} {f : BitVec 1} {a : Half} {d : Byte} {i : Instr} (h : instrOf op f a d = some i) :
    i.opcode = op := by
  obtain ⟨hop, -, -⟩ := fieldUse i
  rw [← hop, encode_instrOf h, packWord_op]

/-- The rows of the table have the defined operation codes, each once. -/
theorem opTable_filter_op : ∀ op : BitVec 4,
    (opTable.filter fun r => op == r.op).map OpRow.op = if op.toNat < 0xB then [op] else [] := by decide

/-- A word selects the row of its operation code where it decodes, and no row otherwise. -/
theorem opTable_filter_selects (w : Word) :
    (opTable.filter fun r => r.selects w).map OpRow.op =
      if w.op.toNat < 0xB ∧ w.unusedZero = true then [w.op] else [] := by
  rw [List.filter_congr (opTable_selects w)]
  cases w.unusedZero with
  | false => simp
  | true => simpa using opTable_filter_op w.op

end Sys2Proof
end

section
/-! SUPPORT. Two operands with the same low 15 bits: the frame, and so every command, is the same for both, but for the
operand that a poll keeps (30_encoding.md R80, R82). -/

namespace Sys2Proof.Machine

/-- The chip sees no bit 15 of the operand (30_encoding.md R82). -/
theorem chipAddr_xor_top (a : Half) : chipAddr (a ^^^ 0x8000#16) = chipAddr a := by
  apply BitVec.eq_of_getLsbD_eq
  intro k hk
  have htop : (0x8000#16).getLsbD k = false := by interval_cases k <;> rfl
  simp [chipAddr, hk, htop]

/-- In BASE no operand is rejected (30_encoding.md R82). -/
theorem addrRejected_base {s : State} (h : s.params.mode = .base) (a : Half) : addrRejected a s = false := by
  simp [addrRejected, h]

/-- The first check depends on a command's operation code alone. -/
theorem ifInitialized_congr {i j : Instr} (h : i.opcode = j.opcode) (s : State) (b : Host.Outcome State Fault Refusal) :
    ifInitialized i s b = ifInitialized j s b := by
  simp only [ifInitialized, h]

/-- With no poll in flight there is no address to change. -/
theorem withPollAddr_of_none {s : State} (h : s.pollCtx = none) (a : Half) : s.withPollAddr a = s := by
  cases s
  subst h
  rfl

theorem setAddress_alias {a b : Half} (h : chipAddr b = chipAddr a) (oe : Bool) (s : State) :
    setAddress b oe s = setAddress a oe s := by
  simp only [setAddress, frame, h]

theorem readCore_alias {a b : Half} (h : chipAddr b = chipAddr a) (s : State) : readCore b s = readCore a s := by
  simp only [readCore, setAddress_alias h]

theorem writePulsed_alias {a b : Half} (h : chipAddr b = chipAddr a) (d : Byte) (s : State) :
    writePulsed b d s = writePulsed a d s := by
  simp only [writePulsed, setAddress_alias h]

/-- A write that ends with a fault in its first step leaves the poll as it was. -/
theorem writePulsed_raised_pollCtx {a : Half} {d : Byte} {s t : State} (h : writePulsed a d s = .raised t) :
    t.pollCtx = s.pollCtx := by
  rw [writePulsed_eq] at h
  simp only [] at h
  split_ifs at h <;> cases h <;> rfl

/-- The first step of a write keeps the operand only in the poll it begins. -/
theorem writeBegin_alias {a b : Half} (h : chipAddr b = chipAddr a) {d : Byte} {s t : State} (hp : s.pollCtx = none)
    (ht : writeBegin a d s = .next t) : writeBegin b d s = .next (t.withPollAddr b) := by
  unfold writeBegin at ht ⊢
  rw [writePulsed_alias h]
  cases hw : writePulsed a d s with
  | done v u =>
    rw [hw] at ht
    cases ht
    rfl
  | raised u =>
    rw [hw] at ht
    cases ht
    rw [withPollAddr_of_none ((writePulsed_raised_pollCtx hw).trans hp)]

/-- UPDATE's read is the same for both operands, and so is what follows it. -/
theorem updateBegin_alias {a b : Half} (h : chipAddr b = chipAddr a) {d : Byte} {s t : State} (hp : s.pollCtx = none)
    (ht : updateBegin a d s = .next t) : updateBegin b d s = .next (t.withPollAddr b) := by
  obtain ⟨n, -, hread⟩ := readCore_state a s
  unfold updateBegin at ht ⊢
  rw [readCore_alias h, hread]
  rw [hread] at ht
  simp only [] at ht ⊢
  split_ifs at ht ⊢
  · cases ht
    rw [withPollAddr_of_none (by exact hp)]
  · exact writeBegin_alias h (by exact hp) ht

/-- One block step of a poll, by what its read answers: over, at its limit, or going on. -/
theorem pollStep_of_read {c : PollCtx} {s u : State} {v : Byte} (hread : readCore c.addr (s.emit .delayPoll) = .done v u)
    (last : State → State) :
    pollStep c s last =
      if v[7] = c.expect then .next (last { u with pollCtx := none }).advance
      else if u.params.mode = .hardened ∧ c.reads + 1 = u.params.pollLimit then
        .next { u with
          pollCtx := some { c with reads := c.reads + 1 }, fault := some (.writeTimeout c.addr (c.reads + 1)) }
      else .next { u with pollCtx := some { c with reads := c.reads + 1 } } := by
  unfold pollStep
  rw [pollIteration, hread, andThen_done]
  by_cases hmatch : v[7] = c.expect
  · simp only [hmatch, if_true]
  · by_cases hlimit : u.params.mode = .hardened ∧ c.reads + 1 = u.params.pollLimit <;>
      simp [hmatch, hlimit, pollMiss, State.raise]

/-- In BASE a poll iteration keeps the operand only in the poll that goes on: there is no WriteTimeout to name it. -/
theorem pollStep_alias (c : PollCtx) {b : Half} (h : chipAddr b = chipAddr c.addr) {s t : State}
    (hm : s.params.mode = .base) (ht : pollStep c { s with pollCtx := some c } (fun x => x) = .next t) :
    pollStep { c with addr := b } { s with pollCtx := some { c with addr := b } } (fun x => x) =
      .next (t.withPollAddr b) := by
  obtain ⟨u, hread, hparams, hread'⟩ :=
    readCore_withPoll c.addr (State.emit { s with pollCtx := some c } .delayPoll) (some { c with addr := b })
  rw [← readCore_alias h] at hread'
  have hstep := pollStep_of_read (c := { c with addr := b })
    (s := { s with pollCtx := some { c with addr := b } }) hread' fun x => x
  have hbase : ¬ u.params.mode = .hardened := by rw [hparams]; simp [hm]
  rw [pollStep_of_read (c := c) hread] at ht
  rw [hstep]
  simp only [hbase, false_and, if_false] at ht ⊢
  split_ifs at ht ⊢ <;> obtain rfl := Host.Outcome.next.inj ht <;> rfl

/-- In BASE a command that begins with an address answers the same for both operands, where what it does behind its two
checks does. -/
theorem checked_alias {i j : Instr} {a b : Half} {s t : State} {body body' : Host.Outcome State Fault Refusal}
    (hop : j.opcode = i.opcode) (hm : s.params.mode = .base) (hp : s.pollCtx = none)
    (hbody : body = .next t → body' = .next (t.withPollAddr b))
    (ht : ifInitialized i s (ifAddressed a s body) = .next t) :
    ifInitialized j s (ifAddressed b s body') = .next (t.withPollAddr b) := by
  rw [ifAddressed_pass (addrRejected_base hm a)] at ht
  rw [ifAddressed_pass (addrRejected_base hm b), ifInitialized_congr hop]
  unfold ifInitialized at ht ⊢
  split_ifs at ht ⊢
  · exact hbody ht
  · cases ht
    rw [withPollAddr_of_none (by exact hp)]

/-! ### POLL, WRITE and UPDATE with no poll in flight -/

theorem exec_poll_begin {a : Half} {e : Bool} {s : State} (hp : s.pollCtx = none) :
    exec (.poll a e) s = ifInitialized (.poll a e) s (ifAddressed a s
      (pollStep { addr := a, expect := e, reads := 0 } { s with pollCtx := some { addr := a, expect := e, reads := 0 } }
        fun x => x)) := by
  simp only [exec, execPoll, hp]

theorem exec_write_begin {a : Half} {d : Byte} {s : State} (hp : s.pollCtx = none) :
    exec (.write a d) s = ifInitialized (.write a d) s (ifAddressed a s (writeBegin a d s)) := by
  simp only [exec, execWrite, hp]

theorem exec_update_begin {a : Half} {d : Byte} {s : State} (hp : s.pollCtx = none) :
    exec (.update a d) s = ifInitialized (.update a d) s (ifAddressed a s (updateBegin a d s)) := by
  simp only [exec, execUpdate, hp]

/-! ### The five commands with an address -/

theorem exec_setaddr_alias {a b : Half} (h : chipAddr b = chipAddr a) {oe : Bool} {s : State} (hm : s.params.mode = .base) :
    exec (.setaddr b oe) s = exec (.setaddr a oe) s := by
  simp only [exec, execSetaddr, ifAddressed_pass (addrRejected_base hm _), setAddress_alias h]
  exact ifInitialized_congr rfl s _

theorem exec_read_alias {a b : Half} (h : chipAddr b = chipAddr a) {s : State} (hm : s.params.mode = .base) :
    exec (.read b) s = exec (.read a) s := by
  simp only [exec, execRead, ifAddressed_pass (addrRejected_base hm _), readCore_alias h]
  exact ifInitialized_congr rfl s _

theorem exec_poll_alias {a b : Half} (h : chipAddr b = chipAddr a) {e : Bool} {s t : State} (hm : s.params.mode = .base)
    (hp : s.pollCtx = none) (ht : exec (.poll a e) s = .next t) : exec (.poll b e) s = .next (t.withPollAddr b) := by
  rw [exec_poll_begin hp] at ht ⊢
  exact checked_alias rfl hm hp (pollStep_alias { addr := a, expect := e, reads := 0 } h hm) ht

theorem exec_write_alias {a b : Half} (h : chipAddr b = chipAddr a) {d : Byte} {s t : State} (hm : s.params.mode = .base)
    (hp : s.pollCtx = none) (ht : exec (.write a d) s = .next t) : exec (.write b d) s = .next (t.withPollAddr b) := by
  rw [exec_write_begin hp] at ht ⊢
  exact checked_alias rfl hm hp (writeBegin_alias h hp) ht

theorem exec_update_alias {a b : Half} (h : chipAddr b = chipAddr a) {d : Byte} {s t : State} (hm : s.params.mode = .base)
    (hp : s.pollCtx = none) (ht : exec (.update a d) s = .next t) : exec (.update b d) s = .next (t.withPollAddr b) := by
  rw [exec_update_begin hp] at ht ⊢
  exact checked_alias rfl hm hp (updateBegin_alias h hp) ht

end Sys2Proof.Machine
end

section
/-! SUPPORT. Commands run one after another, and the primitives where they raise no fault (30_encoding.md R95). -/

namespace Sys2Proof.Machine

/-- A command that raises no fault is followed by the rest. -/
theorem execAll_cons {i : Instr} {cs : List Instr} {s t : State} (h : exec i s = .next t) (hf : t.fault = none) :
    execAll (i :: cs) s = execAll cs t := by
  simp [execAll, h, hf]

/-- A last command answers what it answers alone, with a fault or without. -/
theorem execAll_singleton {i : Instr} {s t : State} (h : exec i s = .next t) : execAll [i] s = .next t := by
  cases hf : t.fault <;> simp [execAll, h, hf]

theorem exec_setaddr_done {a : Half} {oe : Bool} {s : State} (hi : s.init = true) (ha : addrRejected a s = false)
    (hc : ¬ (s.busDir ≠ .input ∧ (framed s (frame a oe))[15] = false ∧ s.lvl.we = true)) :
    exec (.setaddr a oe) s = .next (addressedState a oe s).advance := by
  simp only [exec, execSetaddr, ifInitialized_pass hi, ifAddressed_pass ha, setAddress_eq, if_neg hc, finish_done,
    addressedState]

theorem exec_busin_done {s : State} (hi : s.init = true) : exec .busin s = .next s.busToInput.advance :=
  ifInitialized_pass hi _ _

theorem exec_busout_done {s : State} (hi : s.init = true) (hc : ¬ (s.q[15] = false ∧ s.lvl.we = true)) :
    exec .busout s = .next (s.setBusMode .output).advance := by
  simp only [exec, execBusout, ifInitialized_pass hi, busToOutput_eq, if_neg hc, finish_done]
  rfl

/-- Everything READ does with an accepted address (44_device_ops.md R190). -/
theorem exec_read_done {a : Half} {s : State} (hi : s.init = true) (ha : addrRejected a s = false) :
    exec (.read a) s =
      .next (State.answer
        { (readLatched a s).busValue.2 with trace := (readLatched a s).busValue.2.trace ++ sampleEvents }
        (readByte a s)).advance := by
  simp only [exec, execRead, ifInitialized_pass hi, ifAddressed_pass ha, readCore_eq, finish_done]

theorem exec_rdbyte_done {s : State} (hi : s.init = true) (hb : s.busDir = .input) :
    exec .rdbyte s =
      .next (State.answer { s.busValue.2 with trace := s.busValue.2.trace ++ sampleEvents } s.busValue.1).advance := by
  simp only [exec, execRdbyte, ifInitialized_pass hi, rdByteCore_eq, hb, ne_eq, not_true, if_false, finish_done]

theorem exec_wrbyte_done {d : Byte} {s : State} (hi : s.init = true) (hb : s.busDir = .output) :
    exec (.wrbyte d) s = .next (State.advance { s with dout := d, trace := s.trace ++ driveEvents d }) := by
  simp only [exec, execWrbyte, ifInitialized_pass hi, wrByteCore_eq, hb, ne_eq, not_true, if_false, finish_done]

theorem exec_pulsewe_done {s : State} (hi : s.init = true) (hb : s.busDir = .output) (hq : s.q[15] = true)
    (hc : s.chip = .idle) : exec .pulsewe s = .next s.pulse.advance := by
  simp [exec, execPulsewe, ifInitialized_pass hi, pulseCore, hb, hq, hc]

/-- The first step of a WRITE that raises no fault starts the write cycle and the poll (44_device_ops.md R193). -/
theorem exec_write_started {a : Half} {d : Byte} {s t : State} (hp : s.pollCtx = none)
    (h : exec (.write a d) s = .next t) (hf : t.fault = none) :
    s.chip = .idle ∧ (framed s (frame a false))[15] = true ∧
      t = { writeStarted a d s with pollCtx := some { addr := a, expect := d[7], reads := 0 } } := by
  cases exec_effect h with
  | early f => cases hf
  | writeBegun hi hp h =>
    rcases writeEffect_cases h with ⟨f, hfault, -⟩ | hstarted
    · rw [hfault] at hf
      cases hf
    · exact hstarted
  | writePolled hi hp' h => rw [hp] at hp'; cases hp'

/-! ### The hardware does not depend on `pc` -/

/-- A byte read from the lines does not depend on `pc`, and keeps it. -/
theorem busValue_withPc (s : State) (p : Nat) :
    State.busValue { s with pc := p } = (s.busValue.1, { s.busValue.2 with pc := p }) := by
  have hd : State.chipDrives { s with pc := p } = s.chipDrives := rfl
  unfold State.busValue State.chipDrive
  rw [hd]
  split
  · cases hc : s.chip with
    | idle => simp only [hc]
    | writing a d => by_cases h : chipAddr s.q = a <;> simp [h, hc, State.draw]
  · rfl

/-- `ReadCore` does not depend on `pc`, and keeps it; the free values it takes are the same. -/
theorem readCore_withPc (a : Half) (s : State) :
    ∃ n, ∀ p, readCore a { s with pc := p } = .done (readByte a s) { readState a n s with pc := p } := by
  obtain ⟨n, -, hn⟩ := busValue_state (readLatched a s)
  refine ⟨n, fun p => ?_⟩
  have hlatched : readLatched a { s with pc := p } = { readLatched a s with pc := p } := rfl
  rw [readCore_eq, readByte, hlatched, busValue_withPc, hn]
  simp [readState, readLatched, readByte, readEvents]

/-- A poll iteration is the same wherever `pc` stands. -/
theorem pollStep_withPc {c : PollCtx} {s u : State} (k : Nat) (h : pollStep c s (fun x => x) = .next u) :
    pollStep c { s with pc := s.pc + k } (fun x => x) = .next { u with pc := u.pc + k } := by
  obtain ⟨n, hn⟩ := readCore_withPc c.addr (s.emit .delayPoll)
  have hread : readCore c.addr (s.emit .delayPoll) = _ := hn s.pc
  rw [pollStep_of_read hread] at h
  rw [pollStep_of_read (s := { s with pc := s.pc + k }) (hn (s.pc + k))]
  split_ifs at h ⊢ <;> obtain rfl := Host.Outcome.next.inj h
  · simp [State.advance, Nat.add_right_comm]
  · rfl
  · rfl

/-- READ's first two parts are those of `readLatched` (44_device_ops.md R190). -/
theorem addressedState_busToInput (a : Half) (s : State) : addressedState a true s.busToInput = readLatched a s := by
  have hframed : framed s.busToInput (frame a true) = framed s (frame a true) := rfl
  simp [addressedState, readLatched, hframed]

/-- The four primitives before WRITE's poll leave the write cycle started (44_device_ops.md R193). -/
theorem execAll_write_primitives {a : Half} {d : Byte} {s : State} (cs : List Instr) (hi : s.init = true)
    (hf : s.fault = none) (ha : addrRejected a s = false) (hidle : s.chip = .idle)
    (htop : (framed s (frame a false))[15] = true) :
    execAll (.setaddr a false :: .busout :: .wrbyte d :: .pulsewe :: cs) s =
      execAll cs { writeStarted a d s with pc := s.pc + 4 } := by
  have hoff : ¬ ((framed s (frame a false))[15] = false ∧ s.lvl.we = true) := by simp [htop]
  have hsetaddr := exec_setaddr_done hi ha fun ⟨_, hon⟩ => hoff hon
  have hbusout := exec_busout_done (s := (addressedState a false s).advance) hi hoff
  have hwrbyte : exec (.wrbyte d) ((addressedState a false s).advance.setBusMode .output).advance =
      .next { writeDriven a d s with pc := s.pc + 3 } := by
    rw [exec_wrbyte_done (by exact hi) (by rfl)]
    simp [addressedState, writeDriven, State.advance]
  have hpulse : exec .pulsewe { writeDriven a d s with pc := s.pc + 3 } =
      .next { writeStarted a d s with pc := s.pc + 4 } := by
    rw [exec_pulsewe_done (by exact hi) (by rfl) (by exact htop) (by exact hidle), pulse_eq]
    simp [writeDriven, writeStarted, writeEvents, State.advance, chipAddr_framed]
  rw [execAll_cons hsetaddr hf, execAll_cons hbusout hf, execAll_cons hwrbyte hf, execAll_cons hpulse hf]

end Sys2Proof.Machine
end

section
/-! PROOFS. The statements of the encoding (30_encoding.md). -/

namespace Sys2Proof.Machine

/-- Settles O52: the fields of a command's word spell the command, and the unused ones are zero. -/
theorem decodeOfEncodeIsTheCommand : Obligations.DecodeOfEncodeIsTheCommand := by
  intro i
  obtain ⟨-, -, hzero⟩ := fieldUse i
  exact decode_eq_ok_iff.mpr ⟨instrOf_encode i, hzero⟩

/-- Settles O53: the fields that `encode` sets to zero are zero in a word that decodes. -/
theorem everyCommandHasOneWord : Obligations.EveryCommandHasOneWord := by
  intro w i h
  obtain ⟨hi, hzero⟩ := decode_eq_ok_iff.mp h
  simp only [Word.unusedZero, Bool.and_eq_true, Bool.or_eq_true, beq_iff_eq] at hzero
  obtain ⟨⟨⟨hz, hflag⟩, haddr⟩, hdata⟩ := hzero
  have hf : (usesFlag w.op && w.flag == 1#1) = (w.flag == 1#1) := by rcases hflag with h | h <;> simp [h]
  have ha : (if usesAddr w.op then w.addr else 0#16) = w.addr := by rcases haddr with h | h <;> simp [h]
  have hd : (if usesData w.op then w.data else 0#8) = w.data := by rcases hdata with h | h <;> simp [h]
  rw [encode_instrOf hi, hf, ha, hd, packWord_fields w hz]

/-- Settles O54: `exists_decode_iff` and `opTable_filter_selects` have the same condition. -/
theorem everyWordMatchesOneRowOrIsRefused : Obligations.EveryWordMatchesOneRowOrIsRefused := by
  intro w
  have hrows := opTable_filter_selects w
  refine ⟨fun hw => ?_, fun hw => ?_⟩
  · rw [if_pos hw, List.map_eq_singleton_iff] at hrows
    obtain ⟨r, hr, hop⟩ := hrows
    obtain ⟨i, hi⟩ := exists_decode_iff.mpr hw
    obtain ⟨hinstr, -⟩ := decode_eq_ok_iff.mp hi
    exact ⟨r, i, hr, hi, (instrOf_opcode hinstr).trans hop.symm⟩
  · rw [if_neg hw, List.map_eq_nil_iff] at hrows
    refine ⟨hrows, ?_⟩
    cases hd : decode w with
    | ok i => exact absurd (exists_decode_iff.mp ⟨i, hd⟩) hw
    | error e => exact ⟨e, rfl⟩

/-- Settles O55: the decoder run on each word. -/
theorem specWordsDecode : Obligations.SpecWordsDecode := by
  unfold Obligations.SpecWordsDecode
  decide

/-- Settles O7: the bits of the frame, of which the two 8-bit frames are the halves. -/
theorem frameLayout : Obligations.FrameLayout := by
  intro a oe
  have htop : (frame a oe).getLsbD 15 = !oe := frame_top a oe
  refine ⟨htop, fun k hk => frame_getLsbD a oe hk, ?_, fun k hk => ?_, fun k hk => ?_⟩
  · rw [frameHigh_getLsbD _ (by omega), htop]
  · rw [frameHigh_getLsbD _ (by omega), frame_getLsbD a oe (by omega)]
  · rw [frameLow_getLsbD _ hk, frame_getLsbD a oe (by omega)]

/-- Settles O8: `decodeFrame` reads the address and /OE, which are those of the frame. -/
theorem frameRoundTrip : Obligations.FrameRoundTrip := by
  have hpair (a : Half) (oe : Bool) : decodeFrame (frame a oe) = (BitVec.zeroExtend 16 (chipAddr a), oe) := by
    rw [decodeFrame_eq, chipAddr_frame, frame_top, Bool.not_not]
  refine ⟨fun f => ⟨rfl, ?_, fun k hk => ?_⟩, fun a oe => ⟨hpair a oe, fun ha => ?_⟩⟩
  · rw [decodeFrame_eq, zeroExtend_chipAddr_getLsbD]; rfl
  · rw [decodeFrame_eq, zeroExtend_chipAddr_getLsbD]; simp [hk]
  · rw [hpair, zeroExtend_chipAddr ha]

/-- Settles O13: the two operands have the same low 15 bits. -/
theorem baseIgnoresAddressBit15 : Obligations.BaseIgnoresAddressBit15 := by
  intro s a d e oe hm
  have h := chipAddr_xor_top a
  exact ⟨exec_setaddr_alias h hm, exec_read_alias h hm, fun hp t =>
    ⟨exec_poll_alias h hm hp, exec_write_alias h hm hp, exec_update_alias h hm hp⟩⟩

/-- Settles O36: READ is made of the same three parts. -/
theorem readIsItsExpansion : Obligations.ReadIsItsExpansion := by
  intro s a hi hf ha
  obtain ⟨n, -, hn⟩ := busValue_state (readLatched a s)
  have hread := exec_read_done hi ha
  have hbusin : exec .busin s = .next s.busToInput.advance := exec_busin_done hi
  have hsetaddr : exec (.setaddr a true) s.busToInput.advance = .next { readLatched a s with pc := s.pc + 2 } := by
    rw [exec_setaddr_done (s := s.busToInput.advance) hi ha fun ⟨hdir, _⟩ => hdir rfl, ← addressedState_busToInput]
    rfl
  have hrdbyte := exec_rdbyte_done (s := { readLatched a s with pc := s.pc + 2 }) hi rfl
  rw [hn] at hread
  rw [busValue_withPc, hn] at hrdbyte
  refine ⟨_, hread, hf, ?_⟩
  rw [execAll_cons hbusin hf, execAll_cons hsetaddr hf, execAll_singleton hrdbyte]
  rfl

/-- Settles O37: the four primitives leave what WRITE's first step leaves, but for `pc` and the poll that it begins. -/
theorem writeIsItsExpansion : Obligations.WriteIsItsExpansion := by
  intro s t u a d hi hf hp ha ht htf hu
  obtain ⟨hidle, htop, rfl⟩ := exec_write_started hp ht htf
  rw [exec_write_inflight (by exact hi) (by rfl)] at hu
  have hpollstep := pollStep_withPc 4 hu
  have hpoll : exec (.poll a (d.getLsbD 7)) { writeStarted a d s with pc := s.pc + 4 } =
      .next { u with pc := u.pc + 4 } := by
    rw [exec_poll_begin (by exact hp), ifInitialized_pass (by exact hi), ifAddressed_pass (by exact ha)]
    exact hpollstep
  rw [execAll_write_primitives _ hi hf ha hidle htop, execAll_singleton hpoll]

end Sys2Proof.Machine
end

section
/-! SUPPORT. The contended SETADDR, the word latched with SC high, and the events of a frame by position
(40_address_serializer.md R101 to R105). -/

namespace Sys2Proof.Machine

/-- A SETADDR that meets contention ends after the latch edge, SL still high (40_address_serializer.md R102). -/
theorem exec_setaddr_contended {a : Half} {oe : Bool} {s : State} (hi : s.init = true) (ha : addrRejected a s = false)
    (hc : s.busDir ≠ .input ∧ (framed s (frame a oe))[15] = false ∧ s.lvl.we = true) :
    exec (.setaddr a oe) s = .next ((latchedState a oe s).raise (.busContention (framed s (frame a oe)) s.busDir)) := by
  simp only [exec, execSetaddr, ifInitialized_pass hi, ifAddressed_pass ha, setAddress_eq, if_pos hc, finish_raised,
    latchedState, State.raise]

/-- What keeps a latch edge from contention: the bus in input mode, outputs turned off, or /WE low
(60_exceptions.md R228). -/
theorem uncontended_iff {s : State} {top : Level} :
    ¬ (s.busDir ≠ .input ∧ top = false ∧ s.lvl.we = true) ↔ s.busDir = .input ∨ top = true ∨ s.lvl.we = false := by
  simp only [not_and_or, Decidable.not_not, Bool.not_eq_false, Bool.not_eq_true, ne_eq]

/-- Where SC is high, the old stage 0 stands in the place of the frame's first bit (40_address_serializer.md R104). -/
theorem framed_high {s : State} (h : s.lvl.sc = true) (f : Half) :
    framed s f = BitVec.ofBool (s.sr.getLsbD 0) ++ f.extractLsb' 0 15 := by
  rw [framed, if_pos h]
  rfl

/-- The frame's bits are on the wire from the highest down (40_address_serializer.md R103). -/
theorem shiftEvents_eq_flatMap (f : Half) (n : Nat) :
    shiftEvents f n = (List.range n).flatMap fun k => bitEvents (f.getLsbD (n - 1 - k)) := by
  induction n with
  | zero => rfl
  | succ n ih =>
    simp [shiftEvents, ih, List.range_succ_eq_map, List.flatMap_map, Nat.sub_sub, Nat.add_comm]

/-- A poll iteration only appends to the trace. -/
theorem pollEffect_trace_prefix {c : PollCtx} {last : State → State} {s t : State}
    (hl : ∀ x : State, last x = { x with out := (last x).out }) (h : PollEffect c last s t) : s.trace <+: t.trace := by
  rw [pollEffect_frame hl h]
  exact List.prefix_append _ _

/-- Only a construction starts the trace anew (70_reset_and_hazards.md R250): every other command appends to it. -/
theorem effect_trace_prefix {i : Instr} {s t : State} (h : Effect i s t) (hc : i ≠ .init ∨ s.init = true) :
    s.trace <+: t.trace := by
  cases h with
  | early f => exact List.prefix_rfl
  | constructed hi hv => simp [hi] at hc
  | pulsed hi hb hq hidle => rw [pulse_eq]; exact List.prefix_append _ _
  | pollBegun hi hp hs => exact (pollEffect_trace_prefix (fun _ => rfl) hs :)
  | polled hi hp hs => exact (pollEffect_trace_prefix (fun _ => rfl) hs :)
  | writeBegun hi hp hs => exact (writeEffect_frame hs).2
  | writePolled hi hp hs => exact (pollEffect_trace_prefix (fun _ => rfl) hs :)
  | updateBegun hi hp n hs => exact (List.prefix_append _ _).trans (writeEffect_frame hs).2
  | updatePolled hi hp hs => exact (pollEffect_trace_prefix (fun _ => rfl) hs :)
  | _ => exact List.prefix_append _ _

end Sys2Proof.Machine
end

section
/-! PROOFS. The statements of the address serializer (40_address_serializer.md), and the frames of the six primitives. -/

namespace Sys2Proof.Machine

/-- Settles O9: with SC low the frame is latched whole, so its top bit, `!oe`, decides contention. -/
theorem setaddrLatchesTheFrame : Obligations.SetaddrLatchesTheFrame := by
  intro s a oe hi ha hsc hfree
  have hframed : framed s (frame a oe) = frame a oe := framed_low hsc
  have hsafe : s.busDir = .input ∨ (framed s (frame a oe))[15] = true ∨ s.lvl.we = false := by
    rwa [hframed, frame_top, Bool.not_eq_true', or_left_comm]
  refine ⟨?_, congrArg (· ++ _) (shiftEvents_eq_flatMap (frame a oe) 16), setaddrEvents_length _⟩
  simpa only [addressedState, State.advance, hframed] using exec_setaddr_done hi ha (uncontended_iff.mpr hsafe)

/-- Settles O10: the old stage 0 is the latched /OE, which decides contention. -/
theorem setaddrWithClockHighLosesFirstBit : Obligations.SetaddrWithClockHighLosesFirstBit := by
  intro s a oe hi ha hsc r lvl
  have hframed : framed s (frame a oe) = r := framed_high hsc _
  have haddr : chipAddr r = chipAddr a := hframed ▸ chipAddr_framed s a oe
  have htop : r[15] = s.sr.getLsbD 0 := top_append _ _
  refine ⟨haddr, htop, fun hfree => ?_, fun hdir h0 hwe => ?_⟩
  · have hsafe : s.busDir = .input ∨ (framed s (frame a oe))[15] = true ∨ s.lvl.we = false := by rwa [hframed, htop]
    simpa only [addressedState, State.advance, hframed] using exec_setaddr_done hi ha (uncontended_iff.mpr hsafe)
  · have h15 : (framed s (frame a oe))[15] = false := by rw [hframed, htop, h0]
    simpa only [latchedState, State.raise, hframed] using exec_setaddr_contended hi ha ⟨hdir, h15, hwe⟩

/-- Settles O11: with SC low and the outputs on, the latched top bit is 0. -/
theorem setaddrContentionAfterLatchEdge : Obligations.SetaddrContentionAfterLatchEdge := by
  intro s a hi ha hsc hdir hwe
  have hframed : framed s (frame a true) = frame a true := framed_low hsc
  have h15 : (framed s (frame a true))[15] = false := by rw [hframed, frame_top, Bool.not_true]
  refine ⟨?_, shiftEvents_length _ 16⟩
  simpa only [latchedState, State.raise, hframed] using exec_setaddr_contended hi ha ⟨hdir, h15, hwe⟩

/-- Settles O44: `effect_trace_prefix`, and what each primitive's next states have of the state before. -/
theorem primitiveFrames : Obligations.PrimitiveFrames := by
  intro s t a oe d
  have htrace {i : Instr} (h : exec i s = .next t) (hi : i ≠ .init) : s.trace <+: t.trace :=
    effect_trace_prefix (exec_effect h) (.inl hi)
  refine ⟨fun h => ⟨?_, htrace h nofun⟩, fun h => ⟨?_, htrace h nofun⟩, fun h => ⟨?_, htrace h nofun⟩,
    fun h => ⟨?_, htrace h nofun⟩, fun h => ⟨?_, htrace h nofun⟩, fun h => ⟨?_, htrace h nofun⟩⟩
  · cases exec_effect h with
    | early => rfl
    | addressed => rfl
    | addressContended => rfl
  · cases exec_effect h with
    | early => rfl
    | busIn => rfl
  · cases exec_effect h with
    | early => rfl
    | busOut => rfl
    | busOutContended => rfl
  · cases exec_effect h with
    | early => rfl
    | byteRead => rfl
  · cases exec_effect h with
    | early => rfl
    | byteDriven => rfl
  · cases exec_effect h with
    | early => rfl
    | pulsed => rw [pulse_eq]; rfl

end Sys2Proof.Machine
end

section
/-! SUPPORT. What lies on the data lines, case by case, and the sum of their levels (41_data_bus.md R123, R131). -/

namespace Sys2Proof.Machine

/-- The chip drives the lines while /OE is low and /WE high (10_state.md R38). -/
theorem chipDrives_of_on {s : State} (hq : s.q[15] = false) (hw : s.lvl.we = true) : s.chipDrives = true := by
  simp [State.chipDrives, hq, hw]

/-- With /OE high nothing drives the lines: the byte on them is free (41_data_bus.md R126). -/
theorem busValue_off {s : State} (hq : s.q[15] = true) :
    s.busValue = (Config.freeValue 8 s.draws, { s with draws := s.draws + 1 }) := by
  have hoff : s.chipDrives = false := by simp [State.chipDrives, hq]
  simp [State.busValue, hoff, State.draw]

/-- The byte on the lines while the chip writes `d` at `a`, with counter `n` of free values (41_data_bus.md R127). -/
def writingByte (q : Half) (a : ChipAddr) (d : Byte) (n : Nat) : Byte :=
  if chipAddr q = a then BitVec.ofBool (!d.getLsbD 7) ++ Config.freeValue 7 n else Config.freeValue 8 n

/-- While the chip writes and drives, each read takes one free value (20_memory.md R55). -/
theorem busValue_while_writing {s : State} {a : ChipAddr} {d : Byte} (hd : s.chipDrives = true)
    (hc : s.chip = .writing a d) :
    s.busValue = (writingByte s.q a d s.draws, { s with draws := s.draws + 1 }) := by
  by_cases ha : chipAddr s.q = a <;> simp [State.busValue, State.chipDrive, writingByte, hd, hc, ha, State.draw]

/-- In input mode RDBYTE appends the byte on the lines, `n` being the counter of free values after it. -/
theorem exec_rdbyte_of_busValue {s : State} {v : Byte} {n : Nat} (hi : s.init = true) (hb : s.busDir = .input)
    (hv : s.busValue = (v, { s with draws := n })) :
    exec .rdbyte s = .next { s with
      out := s.out ++ [v], draws := n, trace := s.trace ++ sampleEvents, pc := s.pc + 1 } := by
  rw [exec_rdbyte_done hi hb, hv]
  rfl

/-- BUSOUT while the chip drives the bus ends after the switch, in contention (60_exceptions.md R228). -/
theorem exec_busout_contended {s : State} (hi : s.init = true) (hc : s.q[15] = false ∧ s.lvl.we = true) :
    exec .busout s = .next ((s.setBusMode .output).raise (.busContention s.q .output)) := by
  simp only [exec, execBusout, ifInitialized_pass hi, busToOutput_eq, if_pos hc, finish_raised]
  rfl

/-- The bits below `n`, bit `i` weighted by `2 ^ i`, sum to the number modulo `2 ^ n`. -/
theorem sum_weighted_testBit (x n : Nat) :
    ((List.range n).map fun i => (x.testBit i).toNat * 2 ^ i).sum = x % 2 ^ n := by
  induction n with
  | zero => simp [Nat.mod_one]
  | succ n ih =>
    rw [List.range_succ, List.map_append, List.sum_append, ih, Nat.mod_pow_succ]
    simp [Nat.toNat_testBit, Nat.mul_comm]

/-- A word is the sum of its bits, bit `i` weighted by `2 ^ i`. -/
theorem sum_weighted_bits {w : Nat} (x : BitVec w) :
    ((List.finRange w).map fun i => (x.getLsbD i.val).toNat * 2 ^ i.val).sum = x.toNat := by
  calc ((List.finRange w).map fun i => (x.getLsbD i.val).toNat * 2 ^ i.val).sum
    _ = (((List.finRange w).map Fin.val).map fun i => (x.toNat.testBit i).toNat * 2 ^ i).sum := by
        rw [List.map_map]; rfl
    _ = x.toNat % 2 ^ w := by rw [List.map_coe_finRange_eq_range, sum_weighted_testBit]
    _ = x.toNat := Nat.mod_eq_of_lt x.isLt

end Sys2Proof.Machine
end

section
/-! PROOFS. The statements of the data bus (41_data_bus.md). -/

namespace Sys2Proof.Machine

/-- Settles O16: the chip drives the stored byte, and no free value is taken. -/
theorem rdbyteAppendsStoredByte : Obligations.RdbyteAppendsStoredByte := by
  intro s hi hb hq hw hc
  exact exec_rdbyte_of_busValue hi hb (busValue_idle s (chipDrives_of_on hq hw) hc)

/-- Settles O17: nothing drives the lines, and one free value is taken. -/
theorem rdbyteWithOutputsOffIsNoFault : Obligations.RdbyteWithOutputsOffIsNoFault := by
  intro s hi hb hq
  exact exec_rdbyte_of_busValue hi hb (busValue_off hq)

/-- Settles O18: the chip drives `writingByte`, and one free value is taken. -/
theorem rdbyteWhileChipWrites : Obligations.RdbyteWhileChipWrites := by
  intro s a d hi hb hq hw hc
  exact exec_rdbyte_of_busValue hi hb (busValue_while_writing (chipDrives_of_on hq hw) hc)

/-- Settles O20: the events of the eight lines are `driveEvents`. -/
theorem wrbyteDrivesTheByte : Obligations.WrbyteDrivesTheByte := by
  intro s d hi hb
  exact exec_wrbyte_done hi hb

/-- Settles O21: the levels that WRBYTE leaves are the byte's bits, which both forms of R131 put together again. -/
theorem loopbackYieldsTheByte : Obligations.LoopbackYieldsTheByte := by
  intro s b hi hb
  exact ⟨_, exec_wrbyte_done hi hb, rfl, assembleLines_eq b, sum_weighted_bits b⟩

/-- Settles O14: `busToInput`, which never faults. -/
theorem businTurnsBusToInput : Obligations.BusinTurnsBusToInput := by
  intro s hi
  exact exec_busin_done hi

/-- Settles O15: the contention check passes unless the chip drives the bus. -/
theorem busoutTurnsBusToOutput : Obligations.BusoutTurnsBusToOutput := by
  intro s hi
  refine ⟨fun hoff => ?_, fun hq hw => exec_busout_contended hi ⟨hq, hw⟩⟩
  have hc : ¬ (s.q.getLsbD 15 = false ∧ s.lvl.we = true) := by
    simpa only [not_and_or, Bool.not_eq_false, Bool.not_eq_true] using hoff
  exact exec_busout_done hi hc

end Sys2Proof.Machine
end

section
/-! PROOFS. The statements of the write pulse (42_write_pulse.md). -/

namespace Sys2Proof.Machine

/-- Behind the first check, PULSEWE ends as `PulseCore` does (42_write_pulse.md R150). -/
theorem exec_pulsewe_of_init {s : State} (hi : s.init = true) :
    exec .pulsewe s = (pulseCore s).finish fun _ s' => s' :=
  ifInitialized_pass hi _ _

/-- Settles O22: the command is the pulse, and `b` is `irqAfterPulse`. -/
theorem pulseweStartsTheWriteCycle : Obligations.PulseweStartsTheWriteCycle := by
  intro s hi hb hq hc
  refine ⟨irqAfterPulse s.params.irqExit s.ie, fun henable => ?_, fun hrestore => ?_, ?_⟩
  · rw [henable]; rfl
  · rw [hrestore]; rfl
  · rw [exec_pulsewe_done hi hb hq hc, pulse_eq]
    rfl

/-- Settles O23: `pulseCore_eq` at its first and at its second check. -/
theorem pulsewePreconditionsInOrder : Obligations.PulsewePreconditionsInOrder := by
  intro s hi
  refine ⟨fun hpre => ?_, fun hb hq hc => ?_⟩
  · rw [exec_pulsewe_of_init hi, pulseCore_eq, if_pos (by exact hpre), finish_raised]
    rfl
  · have hpass : ¬ (s.busDir ≠ .output ∨ s.q[15] = false) := by
      rintro (hdir | hlow)
      · exact hdir hb
      · exact Bool.false_ne_true (hlow.symm.trans hq)
    rw [exec_pulsewe_of_init hi, pulseCore_eq, if_neg hpass, if_pos hc, finish_raised]

end Sys2Proof.Machine
end

section
/-! SUPPORT. Who owns a poll in flight and what it waits for, poll by poll (43_completion_poller.md R171), and that every
command keeps it. -/

namespace Sys2Proof

/-- The command makes poll reads, its own or those of its write (43_completion_poller.md R170, 44_device_ops.md R193,
R196). -/
def Instr.polls (i : Instr) : Bool :=
  match i with
  | .poll _ _ | .write _ _ | .update _ _ => true
  | _ => false

end Sys2Proof

namespace Sys2Proof.Machine

/-- `c` is a poll of the command at `pc` and, where that is a write, waits for its byte. -/
structure PollOwned (s : State) (c : PollCtx) : Prop where
  owner : s.command = some (.poll c.addr c.expect) ∨
    ∃ d : Byte, c.expect = d[7] ∧ (s.command = some (.write c.addr d) ∨ s.command = some (.update c.addr d))
  tracked : ∀ a d, s.command = some (.write a d) ∨ s.command = some (.update a d) →
    s.chip = .writing (chipAddr a) d ∨ (s.chip = .idle ∧ s.mem.read (chipAddr a).toNat = d)

/-- `PollInv` is about the poll in flight alone. -/
theorem pollInv_iff {s : State} :
    PollInv s ↔ ∀ c, s.pollCtx = some c → s.init = true ∧ s.serialUsed = true ∧ PollOwned s c := by
  constructor
  · intro h c hc
    obtain ⟨hi, hu⟩ := h.used (by simp [hc])
    exact ⟨hi, hu, h.owned c hc, fun a d => h.tracked c a d hc⟩
  · intro h
    refine ⟨fun c hc => (h c hc).2.2.owner, fun hp => ?_, fun c a d hc => (h c hc).2.2.tracked a d⟩
    obtain ⟨c, hc⟩ := Option.ne_none_iff_exists'.mp hp
    exact ⟨(h c hc).1, (h c hc).2.1⟩

/-- With no poll in flight there is nothing to keep. -/
theorem pollInv_of_none {s : State} (h : s.pollCtx = none) : PollInv s :=
  pollInv_iff.mpr fun c hc => by simp [h] at hc

/-- Only a command that polls has a poll in flight. -/
theorem pollInv_none_of_not_polls {s : State} {i : Instr} (h : PollInv s) (hc : s.command = some i)
    (hi : i.polls = false) : s.pollCtx = none := by
  by_contra hp
  obtain ⟨c, hp⟩ := Option.ne_none_iff_exists'.mp hp
  rcases h.owned c hp with ho | ⟨d, -, ho | ho⟩ <;>
    · rw [hc] at ho
      cases ho
      cases hi

/-- The poll of a POLL waits for no write. -/
theorem PollOwned.of_poll {s : State} {c : PollCtx} (hc : s.command = some (.poll c.addr c.expect)) : PollOwned s c where
  owner := .inl hc
  tracked a d hw := by simp [hc] at hw

/-- The poll of a write whose byte the chip is writing. -/
theorem PollOwned.of_write {s : State} {c : PollCtx} {d : Byte} (he : c.expect = d[7])
    (hc : s.command = some (.write c.addr d) ∨ s.command = some (.update c.addr d))
    (hchip : s.chip = .writing (chipAddr c.addr) d) : PollOwned s c where
  owner := .inr ⟨d, he, hc⟩
  tracked a d' hw := by
    obtain ⟨rfl, rfl⟩ : c.addr = a ∧ d = d' := by rcases hc with hc | hc <;> simpa [hc] using hw
    exact .inl hchip

/-- Reads do not count: where the command, the chip and its bytes are kept, so is whose poll it is. -/
theorem PollOwned.of_kept {s t : State} {c : PollCtx} (h : PollOwned s c) (k : Nat) (hcmd : t.command = s.command)
    (hchip : t.chip = s.chip) (hmem : t.mem = s.mem) : PollOwned t { c with reads := k } where
  owner := hcmd ▸ h.owner
  tracked := by rw [hcmd, hchip, hmem]; exact h.tracked

/-- A latch pulse in the trace is a use of the serial lines. -/
theorem serialUsed_of_mem {s : State} (h : Event.pin .sl false ∈ s.trace) : s.serialUsed = true :=
  List.any_eq_true.mpr ⟨_, h, rfl⟩

/-- A poll iteration ends the poll, or leaves it at its command with one more read made. -/
theorem pollEffect_pollInv {c : PollCtx} {last : State → State} {s t : State}
    (hl : ∀ x : State, last x = { x with out := (last x).out }) (hi : s.init = true) (ho : PollOwned s c)
    (h : PollEffect c last s t) : PollInv t := by
  have hframe := pollEffect_frame hl h
  rcases pollEffect_cases h with ⟨n, -, rfl⟩ | ⟨hpc, -, hp, -⟩
  · exact pollInv_of_none (by rw [hl]; rfl)
  · have hcmd : t.command = s.command := command_congr (by rw [hframe]) hpc
    have hused : t.serialUsed = true := serialUsed_of_mem (by rw [hframe]; simp [readEvents_used])
    refine pollInv_iff.mpr fun c' hc' => ?_
    obtain rfl := Option.some.inj (hp.symm.trans hc')
    exact ⟨by rw [hframe]; exact hi, hused, ho.of_kept _ hcmd (by rw [hframe]) (by rw [hframe])⟩

/-- The first step of a write begins its poll with the chip writing the byte, or begins none. -/
theorem writeEffect_pollInv {a : Half} {d : Byte} {s t : State} (hi : s.init = true) (hp : s.pollCtx = none)
    (hc : s.command = some (.write a d) ∨ s.command = some (.update a d)) (h : WriteEffect a d s t) : PollInv t := by
  rcases writeEffect_cases h with ⟨f, -, -, -, -, hpoll, -⟩ | ⟨-, -, rfl⟩
  · exact pollInv_of_none (hpoll.trans hp)
  · refine pollInv_iff.mpr fun c hc' => ?_
    obtain rfl := Option.some.inj hc'
    exact ⟨hi, serialUsed_of_mem (List.mem_append_right _ (writeEvents_used _ _ _ _)), .of_write rfl hc rfl⟩

/-- Every command keeps whose poll is in flight and what it waits for. -/
theorem effect_pollInv {i : Instr} {s t : State} (h : Effect i s t) (hc : s.command = some i) (hs : PollInv s) :
    PollInv t := by
  have hnone : i.polls = false → s.pollCtx = none := pollInv_none_of_not_polls hs hc
  have howned (c : PollCtx) (hp : s.pollCtx = some c) : PollOwned s c := (pollInv_iff.mp hs c hp).2.2
  cases h with
  | early f => exact ⟨hs.owned, hs.used, hs.tracked⟩
  | constructed hi hv => exact pollInv_of_none rfl
  | pulsed hi hb hq hidle => rw [pulse_eq]; exact pollInv_of_none (hnone rfl)
  | pollBegun hi hp h => exact pollEffect_pollInv (fun _ => rfl) (by exact hi) (.of_poll hc) h
  | polled hi hp h => exact pollEffect_pollInv (fun _ => rfl) hi (howned _ hp) h
  | writeBegun hi hp h => exact writeEffect_pollInv hi hp (.inl hc) h
  | writePolled hi hp h => exact pollEffect_pollInv (fun _ => rfl) hi (howned _ hp) h
  | updateEqual hi hp n => exact pollInv_of_none hp
  | updateBegun hi hp n h => exact writeEffect_pollInv (s := readState _ n s) hi hp (.inr hc) h
  | updatePolled hi hp h => exact pollEffect_pollInv (fun _ => rfl) hi (howned _ hp) h
  | _ => exact pollInv_of_none (hnone rfl)

/-- The chip's completion stores the byte that a write's poll waits for. -/
theorem stepEffect_pollInv {s t : State} (h : StepEffect s t) (hm : s.mem.wf = true) (hs : PollInv s) : PollInv t := by
  cases h with
  | completed n p a d hw =>
    refine ⟨hs.owned, hs.used, fun c a' d' hp hc => .inr ⟨rfl, ?_⟩⟩
    rcases hs.tracked c a' d' hp hc with htr | ⟨hidle, -⟩
    · cases hw.symm.trans htr
      exact memory_read_write_same hm
    · cases hw.symm.trans hidle
  | waited => exact ⟨hs.owned, hs.used, hs.tracked⟩
  | refused => exact ⟨hs.owned, hs.used, hs.tracked⟩
  | ran n p i t hd he => exact effect_pollInv (exec_effect he) hd ⟨hs.owned, hs.used, hs.tracked⟩

end Sys2Proof.Machine
end

section
/-! SUPPORT. A HARDENED poll stays below its limit, and an iteration of POLL by the bit that it reads
(43_completion_poller.md R170, R175). -/

namespace Sys2Proof.Machine

/-- A poll iteration that neither ends the poll nor reaches the limit stays below it. -/
theorem pollEffect_pollBound {c : PollCtx} {last : State → State} {s t : State}
    (hl : ∀ x : State, last x = { x with out := (last x).out })
    (hb : s.params.mode = .hardened → c.reads < s.params.pollLimit) (h : PollEffect c last s t) : PollBound t := by
  cases h with
  | matched n h => rw [hl]; exact fun c' _ _ hp => nomatch hp
  | timeout n h hm hlim => exact fun c' _ hf _ => nomatch hf
  | missed n h hlim =>
    intro c' hm _ hp
    obtain rfl := Option.some.inj hp
    exact lt_of_le_of_ne (hb hm) fun heq => hlim ⟨hm, heq⟩

/-- A write's poll begins with no read done. -/
theorem writeEffect_pollBound {a : Half} {d : Byte} {s t : State} (hlim : 0 < s.params.pollLimit)
    (h : WriteEffect a d s t) : PollBound t := by
  rcases writeEffect_cases h with ⟨f, hf, -⟩ | ⟨-, -, rfl⟩
  · exact fun c _ hnone _ => by simp [hf] at hnone
  · intro c _ _ hp
    obtain rfl := Option.some.inj hp
    exact hlim

/-- Every command keeps a poll below its limit. -/
theorem effect_pollBound {i : Instr} {s t : State} (h : Effect i s t) (hlim : 0 < s.params.pollLimit)
    (hf : s.fault = none) (hs : PollBound s) : PollBound t := by
  cases h with
  | constructed hi hv => exact fun c _ _ hp => nomatch hp
  | pulsed hi hb hq hidle => rw [pulse_eq]; exact fun c hm _ hp => hs c hm hf hp
  | pollBegun hi hp h => exact pollEffect_pollBound (fun _ => rfl) (fun _ => hlim) h
  | polled hi hp h => exact pollEffect_pollBound (fun _ => rfl) (fun hm => hs _ hm hf hp) h
  | writeBegun hi hp h => exact writeEffect_pollBound hlim h
  | writePolled hi hp h => exact pollEffect_pollBound (fun _ => rfl) (fun hm => hs _ hm hf hp) h
  | updateBegun hi hp n h => exact writeEffect_pollBound (s := readState _ n s) hlim h
  | updatePolled hi hp h => exact pollEffect_pollBound (fun _ => rfl) (fun hm => hs _ hm hf hp) h
  | _ => exact fun c hm _ hp => hs c hm hf hp

theorem stepEffect_pollBound {s t : State} (h : StepEffect s t) (hlim : 0 < s.params.pollLimit) (hf : s.fault = none)
    (hs : PollBound s) : PollBound t := by
  cases h with
  | ran n p i t hd he => exact effect_pollBound (exec_effect he) hlim hf hs
  | _ => exact hs

/-- One iteration of POLL, its first one included, by the bit its read returns (43_completion_poller.md R170, R175). -/
theorem exec_poll_iteration {a : Half} {e : Bool} {s : State} (hi : s.init = true)
    (ha : s.pollCtx ≠ none ∨ addrRejected a s = false) :
    ∃ n, s.draws < n ∧ exec (.poll a e) s =
      let c := s.pollOf a e
      if (pollByte c s)[7] = c.expect then .next { pollRead c s n with pollCtx := none, pc := s.pc + 1 }
      else if s.params.mode = .hardened ∧ c.reads + 1 = s.params.pollLimit then
        .next { pollRead c s n with
          pollCtx := some { c with reads := c.reads + 1 }, fault := some (.writeTimeout c.addr (c.reads + 1)) }
      else .next { pollRead c s n with pollCtx := some { c with reads := c.reads + 1 } } := by
  obtain ⟨n, hlt, hn⟩ := pollStep_eq (s.pollOf a e) { s with pollCtx := some (s.pollOf a e) } fun x => x
  refine ⟨n, hlt, ?_⟩
  rw [exec_poll_eq hi ha, hn, pollByte_withPoll]
  rfl

/-- A read of the other bit is no match. -/
theorem pollReads_other {c : PollCtx} {s : State} (h : PollReads c s (!c.expect)) : (pollByte c s)[7] ≠ c.expect := by
  rw [pollReads_bit h]
  exact Bool.not_ne_self _

end Sys2Proof.Machine
end

section
/-! SUPPORT. Runs of a poll in flight: what its iterations count and keep, and how the poll of a write goes until the chip
completes (43_completion_poller.md R170 to R174, 44_device_ops.md R195). -/

namespace Sys2Proof.Machine

/-- What a command does last when its poll is over: UPDATE appends 1 (44_device_ops.md R196). -/
def pollEnd (i : Instr) (s : State) : State :=
  match i with
  | .update _ _ => s.answer 1#8
  | _ => s

/-- A poll in flight is what its command goes on with, whichever of the three it is (43_completion_poller.md R171). -/
theorem exec_inflight {i : Instr} {c : PollCtx} {s : State} (hpolls : i.polls = true) (hi : s.init = true)
    (hp : s.pollCtx = some c) : exec i s = pollStep c s (pollEnd i) := by
  cases i with
  | poll a e => exact exec_poll_inflight hi hp
  | write a d => exact exec_write_inflight hi hp
  | update a d => exact exec_update_inflight hi hp
  | _ => cases hpolls

/-- The events of `k` poll iterations (43_completion_poller.md R172, R176). -/
def pollEvents (a : Half) (k : Nat) : List Event := (List.replicate k (.delayPoll :: readEvents a)).flatten

@[simp] theorem pollEvents_length (a : Half) (k : Nat) : (pollEvents a k).length = 61 * k := by
  simp [pollEvents, Nat.mul_comm]

@[simp] theorem delays_pollEvents (a : Half) (k : Nat) : (pollEvents a k).count .delayPoll = k := by
  simp [pollEvents, List.count_flatten, delays_readEvents]

theorem pollEvents_add (a : Half) (j k : Nat) : pollEvents a (j + k) = pollEvents a j ++ pollEvents a k := by
  rw [pollEvents, List.replicate_add, List.flatten_append, pollEvents, pollEvents]

/-- `t` comes from `s` by `k` poll reads at `a`: their events, and what they keep. The end of a command is not in it. -/
structure Polled (a : Half) (k : Nat) (s t : State) : Prop where
  trace : t.trace = s.trace ++ pollEvents a k
  params : t.params = s.params
  cmds : t.cmds = s.cmds
  pc : t.pc = s.pc
  out : t.out = s.out
  chip : t.chip = s.chip
  mem : t.mem = s.mem

theorem Polled.refl (a : Half) (s : State) : Polled a 0 s s := ⟨(List.append_nil _).symm, rfl, rfl, rfl, rfl, rfl, rfl⟩

theorem Polled.trans {a : Half} {j k : Nat} {s t u : State} (h : Polled a j s t) (h' : Polled a k t u) :
    Polled a (j + k) s u where
  trace := by rw [h'.trace, h.trace, pollEvents_add, List.append_assoc]
  params := h'.params.trans h.params
  cmds := h'.cmds.trans h.cmds
  pc := h'.pc.trans h.pc
  out := h'.out.trans h.out
  chip := h'.chip.trans h.chip
  mem := h'.mem.trans h.mem

/-- The chip's echo is still what it was. -/
theorem Polled.echo {a : Half} {k : Nat} {s t : State} (h : Polled a k s t) (b : Half) : t.echo b = s.echo b := by
  simp only [State.echo, h.chip, h.mem]

/-- The chip takes no turn in the next `k` steps: it is Idle, or its schedule says so, with `plan` left of it then
(20_memory.md R57). -/
def ChipStays (k : Nat) (plan : List Bool) (s : State) : Prop :=
  s.chip = .idle ∨ s.chipPlan = List.replicate k false ++ plan

theorem chipTurn_of_stays {k : Nat} {plan : List Bool} {s : State} (h : ChipStays (k + 1) plan s) :
    ∃ p, s.chipTurn = (false, { s with chipPlan := p }) ∧ ChipStays k plan { s with chipPlan := p } := by
  obtain hc | ⟨a, d, hc⟩ : s.chip = .idle ∨ ∃ a d, s.chip = .writing a d := by cases s.chip <;> simp
  · exact ⟨s.chipPlan, chipTurn_idle hc, .inl hc⟩
  · have hp : s.chipPlan = false :: (List.replicate k false ++ plan) := h.resolve_left (by simp [hc])
    exact ⟨_, chipTurn_planned hc hp, .inr rfl⟩

/-- With the chip Idle, a step is `exec` of the command at `pc`. -/
theorem step_command_idle {s : State} {i : Instr} (hf : s.fault = none) (hr : s.refused = none)
    (hc : s.command = some i) (hidle : s.chip = .idle) : step s = exec i s := by
  rw [step_command hf hr hc (by rw [chipTurn_idle hidle]), chipTurn_idle hidle]

/-- Runs that begin with the same step are the same. -/
theorem run_congr {s t : State} (h : step s = step t) (n : Nat) : core.run (n + 1) s = core.run (n + 1) t := by
  have h' : core.step s = core.step t := h
  simp only [Host.Core.run, h']

/-- The block is constructed and goes on, and a read finds SC low and /WE high. -/
structure ReadReady (s : State) : Prop where
  unfaulted : s.fault = none
  unrefused : s.refused = none
  constructed : s.init = true
  clockLow : s.lvl.sc = false
  weHigh : s.lvl.we = true

/-- The command at `pc` is `i`, and its poll `c` is in flight. -/
structure InFlight (i : Instr) (c : PollCtx) (s : State) : Prop extends ReadReady s where
  command : s.command = some i
  polls : i.polls = true
  poll : s.pollCtx = some c

/-- Where the chip takes no turn, a step is one iteration of the poll in flight. -/
theorem InFlight.step_eq {i : Instr} {c : PollCtx} {s : State} {p : List Bool} (h : InFlight i c s)
    (hturn : s.chipTurn = (false, { s with chipPlan := p })) :
    step s = pollStep c { s with chipPlan := p } (pollEnd i) := by
  rw [step_command h.unfaulted h.unrefused h.command (by rw [hturn]), hturn]
  exact exec_inflight h.polls h.constructed h.poll

/-- `InFlight.step_eq` for an Idle chip, which has no turn. -/
theorem InFlight.step_idle {i : Instr} {c : PollCtx} {s : State} (h : InFlight i c s) (hidle : s.chip = .idle) :
    step s = pollStep c s (pollEnd i) :=
  h.step_eq (p := s.chipPlan) (chipTurn_idle hidle)

/-- The step that begins a POLL is that of its poll in flight with no read done (43_completion_poller.md R171). -/
theorem InFlight.step_begin {a : Half} {e : Bool} {c : PollCtx} {s : State}
    (h : InFlight (.poll a e) c { s with pollCtx := some c }) (hc : s.pollOf a e = c) (ha : addrRejected a s = false)
    (hidle : s.chip = .idle) : step s = step { s with pollCtx := some c } := by
  calc step s
    _ = exec (.poll a e) s := step_command_idle h.unfaulted h.unrefused h.command hidle
    _ = pollStep (s.pollOf a e) { s with pollCtx := some (s.pollOf a e) } (fun x => x) :=
      exec_poll_eq h.constructed (.inr ha)
    _ = pollStep c { s with pollCtx := some c } (fun x => x) := by rw [hc]
    _ = step { s with pollCtx := some c } := (h.step_idle hidle).symm

/-- A read of the other bit, the limit not reached, leaves the poll in flight with one more read done. -/
theorem InFlight.missed {i : Instr} {c : PollCtx} {s : State} {k : Nat} {plan : List Bool} (h : InFlight i c s)
    (hstays : ChipStays (k + 1) plan s) (hecho : s.echo c.addr = some (!c.expect))
    (hlim : s.params.mode = .base ∨ c.reads + 1 < s.params.pollLimit) :
    ∃ t, step s = .next t ∧ InFlight i { c with reads := c.reads + 1 } t ∧ ChipStays k plan t ∧
      Polled c.addr 1 s t := by
  have hbelow : ¬ (s.params.mode = .hardened ∧ c.reads + 1 = s.params.pollLimit) := by
    rintro ⟨hm, heq⟩
    rcases hlim with hbase | hlt
    · cases hbase.symm.trans hm
    · exact hlt.ne heq
  obtain ⟨p, hturn, hstays'⟩ := chipTurn_of_stays hstays
  obtain ⟨n, hn⟩ := pollStep_missed (s := { s with chipPlan := p }) (pollEnd i) h.clockLow h.weHigh hecho hbelow
  refine ⟨_, (h.step_eq hturn).trans hn, { h with clockLow := rfl, poll := rfl }, hstays', ?_⟩
  exact ⟨by simp [pollRead, pollEvents], rfl, rfl, rfl, rfl, rfl, rfl⟩

/-- As long as the reads give the other bit and the limit is not reached, the poll goes on. -/
theorem InFlight.run_missed {i : Instr} {plan : List Bool} {k : Nat} {c : PollCtx} {s : State} (h : InFlight i c s)
    (hstays : ChipStays k plan s) (hecho : s.echo c.addr = some (!c.expect))
    (hlim : s.params.mode = .base ∨ c.reads + k < s.params.pollLimit) :
    ∃ t, core.run k s = .next t ∧ InFlight i { c with reads := c.reads + k } t ∧ ChipStays 0 plan t ∧
      Polled c.addr k s t := by
  induction k generalizing c s with
  | zero => exact ⟨s, rfl, h, hstays, .refl _ _⟩
  | succ k ih =>
    obtain ⟨t, hstep, ht, hstays', hpolled⟩ := h.missed hstays hecho (hlim.imp_right (by omega))
    have hlim' : t.params.mode = .base ∨ c.reads + 1 + k < t.params.pollLimit := by
      rw [hpolled.params]
      exact hlim.imp_right (by omega)
    obtain ⟨u, hrun, hu, hstays', hpolled'⟩ := ih ht hstays' ((hpolled.echo _).trans hecho) hlim'
    rw [Nat.add_assoc, Nat.add_comm 1 k] at hu
    exact ⟨u, (run_succ hstep).trans hrun, hu, hstays', Nat.add_comm 1 k ▸ hpolled.trans hpolled'⟩

/-- A read of the expected bit ends the poll; `u` is the state before the command does. -/
theorem InFlight.matched {i : Instr} {c : PollCtx} {s : State} (h : InFlight i c s) (hidle : s.chip = .idle)
    (hecho : s.echo c.addr = some c.expect) :
    ∃ u, step s = .next (pollEnd i u).advance ∧ ReadReady u ∧ u.pollCtx = none ∧ Polled c.addr 1 s u := by
  obtain ⟨n, hn⟩ := pollStep_matched (pollEnd i) h.clockLow h.weHigh hecho
  refine ⟨_, (h.step_idle hidle).trans hn, { h.toReadReady with clockLow := rfl }, rfl, ?_⟩
  exact ⟨by simp [pollRead, pollEvents], rfl, rfl, rfl, rfl, rfl, rfl⟩

/-- The chip completes after `k` of its turns: the poll of the write reads the other bit `k` times, and once more when the
byte is stored (44_device_ops.md R195). -/
theorem InFlight.run_completes {i : Instr} {c : PollCtx} {s : State} {d : Byte} {k : Nat} {rest : List Bool}
    (h : InFlight i c s) (he : c.expect = d[7]) (hw : s.chip = .writing (chipAddr c.addr) d)
    (hplan : s.chipPlan = List.replicate k false ++ true :: rest) (hm : s.mem.wf = true)
    (hlim : s.params.mode = .base ∨ c.reads + k < s.params.pollLimit) :
    ∃ u, core.run (k + 2) s = .next (pollEnd i u).advance ∧ ReadReady u ∧ u.pollCtx = none ∧
      Polled c.addr (k + 1) { s with chip := .idle, mem := s.mem.write (chipAddr c.addr).toNat d } u := by
  have hecho : s.echo c.addr = some (!c.expect) := by simp [State.echo, hw, he]
  obtain ⟨t, hrun, ht, hstays, hpolled⟩ := h.run_missed (.inr hplan) hecho hlim
  have htw : t.chip = .writing (chipAddr c.addr) d := hpolled.chip.trans hw
  have htplan : t.chipPlan = true :: rest := hstays.resolve_left (by simp [htw])
  have hcompletes := step_completes ht.unfaulted ht.unrefused htw htplan
  have hstored : (t.mem.write (chipAddr c.addr).toNat d).read (chipAddr c.addr).toNat = d :=
    memory_read_write_same (hpolled.mem.symm ▸ hm)
  obtain ⟨u, hstep, hready, hnone, hlast⟩ := InFlight.matched
    (s := { t with chip := .idle, mem := t.mem.write (chipAddr c.addr).toNat d, chipPlan := rest })
    { ht with } rfl (by simp [State.echo, hstored, he])
  refine ⟨u, (run_next ((run_next hrun).trans hcompletes)).trans hstep, hready, hnone, .trans ?_ hlast⟩
  exact { hpolled with chip := rfl, mem := by rw [hpolled.mem] }

end Sys2Proof.Machine
end

section
/-! PROOFS. The statements of the completion poller (43_completion_poller.md). -/

namespace Sys2Proof.Machine

/-- Settles O57: `stepEffect_pollInv`, a case for each next state of a step. -/
theorem everyStepKeepsPollInv : Obligations.EveryStepKeepsPollInv := by
  intro s t hm hs h
  obtain ⟨-, -, h⟩ := step_effect h
  exact stepEffect_pollInv h hm hs

/-- Settles O58: `stepEffect_pollBound`; a poll begins below the limit, which is at least 1. -/
theorem everyStepKeepsPollBound : Obligations.EveryStepKeepsPollBound := by
  intro s t hwf hs h
  obtain ⟨hf, -, h⟩ := step_effect h
  exact stepEffect_pollBound h (of_decide_eq_true hwf) hf hs

/-- Settles O24: `exec_poll_iteration` where the bit read is the expected one. -/
theorem pollEndsOnMatchingEcho : Obligations.PollEndsOnMatchingEcho := by
  intro s a e hi ha hread
  obtain ⟨n, hlt, hn⟩ := exec_poll_iteration (e := e) hi ha
  refine ⟨n, hlt, ?_⟩
  rw [hn, if_pos (pollReads_bit hread)]
  rfl

/-- Settles O25: `exec_poll_iteration` where the bit read is the other one, below the limit. -/
theorem pollGoesOnAfterMiss : Obligations.PollGoesOnAfterMiss := by
  intro s a e hi ha hread hlim
  obtain ⟨n, hlt, hn⟩ := exec_poll_iteration (e := e) hi ha
  refine ⟨n, hlt, ?_⟩
  rw [hn, if_neg (pollReads_other hread), if_neg hlim]
  rfl

/-- Settles O26: `exec_poll_iteration` where the bit read is the other one, at the limit. -/
theorem hardenedPollTimesOutAtLimit : Obligations.HardenedPollTimesOutAtLimit := by
  intro s a e hi ha hread hm hlim
  obtain ⟨n, hlt, hn⟩ := exec_poll_iteration (e := e) hi ha
  refine ⟨n, hlt, ?_⟩
  rw [hn, if_neg (pollReads_other hread), if_pos ⟨hm, hlim⟩, hlim]
  rfl

/-- Settles O27: `InFlight.run_missed`, the first step being that of the poll with no read done. -/
theorem basePollOfOtherBitNeverEnds : Obligations.BasePollOfOtherBitNeverEnds := by
  intro s a e hbase hf hr hi hsc hwe hidle hp hc hbit n
  have hflight : InFlight (.poll a e) ⟨a, e, 0⟩ { s with pollCtx := some ⟨a, e, 0⟩ } :=
    ⟨⟨hf, hr, hi, hsc, hwe⟩, hc, rfl, rfl⟩
  have hecho : s.echo a = some (!e) := by simpa [State.echo, hidle] using hbit
  have hbegin := hflight.step_begin (by simp [State.pollOf, hp]) (addrRejected_base hbase a) hidle
  obtain ⟨t, hrun, ht, -, hpolled⟩ := hflight.run_missed (k := n + 1) (plan := []) (.inl hidle) hecho (.inl hbase)
  have hlength := congrArg List.length hpolled.trace
  rw [List.length_append, pollEvents_length] at hlength
  refine ⟨t, (run_congr hbegin n).trans hrun, hpolled.pc, ht.unfaulted, ht.unrefused, ?_, hlength⟩
  rw [ht.poll, Nat.zero_add]

/-- Settles O39: `InFlight.run_completes`, and the lengths and delays of `k + 1` iterations' events. -/
theorem writeReturnsAfterChipCompletes : Obligations.WriteReturnsAfterChipCompletes := by
  intro s a d c k rest hlim hf hr hi hsc hwe hm hc hp ha he hw hplan
  subst ha
  have hflight : InFlight (.write c.addr d) c s := ⟨⟨hf, hr, hi, hsc, hwe⟩, hc, rfl, hp⟩
  obtain ⟨u, hrun, hready, hnone, hpolled⟩ := hflight.run_completes he hw hplan hm hlim
  have hstored : u.mem.read (chipAddr c.addr).toNat = d := by rw [hpolled.mem]; exact memory_read_write_same hm
  have hlength := congrArg List.length hpolled.trace
  have hdelays := congrArg (List.count .delayPoll) hpolled.trace
  rw [List.length_append, pollEvents_length] at hlength
  rw [List.count_append, delays_pollEvents] at hdelays
  exact ⟨_, hrun, congrArg (· + 1) hpolled.pc, hready.unfaulted, hnone, hpolled.chip, hstored, hpolled.out, hlength,
    hdelays⟩

/-- Settles O45: the frames of a poll iteration and of a write's first step, and `effect_trace_prefix`. -/
theorem deviceOpFrames : Obligations.DeviceOpFrames := by
  intro s t a e d
  have htrace {i : Instr} (h : exec i s = .next t) (hi : i ≠ .init) : s.trace <+: t.trace :=
    effect_trace_prefix (exec_effect h) (.inl hi)
  refine ⟨fun h => ⟨?_, htrace h nofun⟩, fun h => ⟨?_, htrace h nofun⟩, fun h => ⟨?_, htrace h nofun⟩,
    fun h => ⟨?_, htrace h nofun⟩⟩
  · cases exec_effect h with
    | early => rfl
    | pollBegun hi hp hs => rw [pollEffect_frame (fun _ => rfl) hs, pollEffect_keeps_out hs]
    | polled hi hp hs => rw [pollEffect_frame (fun _ => rfl) hs, pollEffect_keeps_out hs]
  · cases exec_effect h with
    | early => rfl
    | read => rfl
  · cases exec_effect h with
    | early => rfl
    | writeBegun hi hp hs => rw [(writeEffect_frame hs).1]
    | writePolled hi hp hs => rw [pollEffect_frame (fun _ => rfl) hs, pollEffect_keeps_out hs]
  · cases exec_effect h with
    | early => rfl
    | updateEqual => rfl
    | updateBegun hi hp n hs => rw [(writeEffect_frame hs).1]; rfl
    | updatePolled hi hp hs => rw [pollEffect_frame (fun _ => rfl) hs]

end Sys2Proof.Machine
end

section
/-! SUPPORT. What the read of a device operation returns and leaves, by what drives the lines: the stored byte, the byte being
written, or nothing (44_device_ops.md R190, R191, 20_memory.md R55). -/

namespace Sys2Proof.Machine

/-- The chip drives the lines that a read samples: the word latched has the outputs on (41_data_bus.md R123). -/
theorem readLatched_drives {a : Half} {s : State} (hon : s.lvl.sc = false ∨ s.sr[0] = false) (hwe : s.lvl.we = true) :
    (readLatched a s).chipDrives = true := by
  have htop : (readLatched a s).q[15] = false := by
    show (framed s (frame a true))[15] = false
    rw [framed_on hon, frame_top, Bool.not_true]
  exact chipDrives_of_on htop hwe

/-- Over a set stage 0 with SC high the word latched has the outputs off, and with /WE low they are off too
(40_address_serializer.md R104, 20_memory.md R54). -/
theorem readLatched_undriven {a : Half} {s : State}
    (hoff : (s.lvl.sc = true ∧ s.sr.getLsbD 0 = true) ∨ s.lvl.we = false) : (readLatched a s).chipDrives = false := by
  rcases hoff with ⟨hsc, h0⟩ | hwe
  · have htop : (readLatched a s).q[15] = true := by
      show (framed s (frame a true))[15] = true
      rw [framed_high hsc, h0]
      exact top_append true _
    simp [State.chipDrives, htop]
  · have hwe' : (readLatched a s).lvl.we = false := hwe
    simp [State.chipDrives, hwe']

/-- From an Idle chip that drives, the byte on the lines is the stored one, and no free value is taken. -/
theorem readLatched_stored {a : Half} {s : State} (hon : s.lvl.sc = false ∨ s.sr[0] = false) (hwe : s.lvl.we = true)
    (hc : s.chip = .idle) : (readLatched a s).busValue = (s.mem.read (chipAddr a).toNat, readLatched a s) := by
  have haddr : chipAddr (readLatched a s).q = chipAddr a := chipAddr_framed s a true
  rw [busValue_idle _ (readLatched_drives hon hwe) hc, haddr]
  rfl

theorem readByte_stored {a : Half} {s : State} (hon : s.lvl.sc = false ∨ s.sr[0] = false) (hwe : s.lvl.we = true)
    (hc : s.chip = .idle) : readByte a s = s.mem.read (chipAddr a).toNat :=
  congrArg Prod.fst (readLatched_stored hon hwe hc)

/-- From a chip that is writing, the byte is that of 20_memory.md R55; the bus switch took the free value before it. -/
theorem readByte_while_writing {a : Half} {s : State} {a' : ChipAddr} {d : Byte}
    (hon : s.lvl.sc = false ∨ s.sr[0] = false) (hwe : s.lvl.we = true) (hc : s.chip = .writing a' d) :
    readByte a s = if chipAddr a = a' then BitVec.ofBool (!d.getLsbD 7) ++ Config.freeValue 7 (s.draws + 1)
      else Config.freeValue 8 (s.draws + 1) := by
  have haddr : chipAddr (readLatched a s).q = chipAddr a := chipAddr_framed s a true
  rw [readByte, busValue_while_writing (readLatched_drives hon hwe) hc, writingByte, haddr]
  rfl

/-- Where nothing drives the lines the byte is free (41_data_bus.md R126). -/
theorem readByte_undriven {a : Half} {s : State}
    (hoff : (s.lvl.sc = true ∧ s.sr.getLsbD 0 = true) ∨ s.lvl.we = false) :
    readByte a s = Config.freeValue 8 (s.draws + 1) := by
  rw [readByte, State.busValue, readLatched_undriven hoff]
  rfl

/-- `ReadCore` from an Idle chip that drives, wherever SC stands. -/
theorem readCore_stored {a : Half} {s : State} (hon : s.lvl.sc = false ∨ s.sr[0] = false) (hwe : s.lvl.we = true)
    (hc : s.chip = .idle) : readCore a s = .done (s.mem.read (chipAddr a).toNat) (readState a (s.draws + 1) s) := by
  rw [readCore_eq, readByte, readLatched_stored hon hwe hc]
  simp [readState, readLatched, readEvents]

/-- `ReadCore` never faults, and the state it leaves is `readState` (44_device_ops.md R190). -/
theorem readCore_readState (a : Half) (s : State) :
    ∃ n, s.draws < n ∧ readCore a s = .done (readByte a s) (readState a n s) :=
  readCore_state a s

/-- The fields that a read writes. -/
theorem readState_eq (a : Half) (n : Nat) (s : State) :
    readState a n s = { s with
      busDir := .input, dout := Config.freeValue 8 s.draws, draws := n
      lvl := { s.lvl with sd := a.getLsbD 0, sc := false, sl := false }
      sr := framed s (frame a true), q := framed s (frame a true)
      trace := s.trace ++ readEvents a } := by
  rw [← frame_bit0 a true]
  rfl

theorem readState_trace (a : Half) (n : Nat) (s : State) : (readState a n s).trace = s.trace ++ readEvents a := rfl

/-- READ with an accepted address appends the byte that `ReadCore` returns (44_device_ops.md R190). -/
theorem exec_read_of_readCore {a : Half} {s u : State} {v : Byte} (hi : s.init = true) (ha : addrRejected a s = false)
    (h : readCore a s = .done v u) : exec (.read a) s = .next (u.answer v).advance := by
  simp only [exec, execRead, ifInitialized_pass hi, ifAddressed_pass ha, h, finish_done]

/-- READs of an Idle chip one after another each append the stored byte (44_device_ops.md R192). -/
theorem execAll_reads_idle {a : Half} {s : State} (n : Nat) (hi : s.init = true) (hf : s.fault = none)
    (ha : addrRejected a s = false) (hsc : s.lvl.sc = false) (hwe : s.lvl.we = true) (hc : s.chip = .idle) :
    ∃ t : State, execAll (List.replicate n (.read a)) s = .next t ∧ t.fault = none ∧ t.chip = .idle ∧ t.mem = s.mem ∧
      t.out = s.out ++ List.replicate n (s.mem.read (chipAddr a).toNat) := by
  induction n generalizing s with
  | zero => exact ⟨s, rfl, hf, hc, rfl, by simp⟩
  | succ n ih =>
    have hread := exec_read_idle hi ha hsc hwe hc
    obtain ⟨t, hrest, htf, htc, hmem, hout⟩ :=
      ih (s := ((readDone a s).answer (s.mem.read (chipAddr a).toNat)).advance) hi hf ha rfl hwe hc
    refine ⟨t, ?_, htf, htc, hmem, ?_⟩
    · rw [List.replicate_succ, execAll_cons hread (by exact hf)]
      exact hrest
    · rw [hout, List.replicate_succ]
      simp [readDone]

end Sys2Proof.Machine
end

section
/-! SUPPORT. The first step of WRITE and of UPDATE: the write cycle started, the chip found busy, or the byte already there
(44_device_ops.md R193, R196). -/

namespace Sys2Proof.Machine

theorem writeEvents_length (p : Params) (ie : Bool) (a : Half) (d : Byte) : (writeEvents p ie a d).length = 65 := by
  simp [writeEvents, driveEvents, linesUp, pulseEvents]

/-- A WRITE with no poll in flight and an accepted address begins its write (44_device_ops.md R193). -/
theorem exec_write_accepted {a : Half} {d : Byte} {s : State} (hi : s.init = true) (ha : addrRejected a s = false)
    (hp : s.pollCtx = none) : exec (.write a d) s = writeBegin a d s := by
  rw [exec_write_begin hp, ifInitialized_pass hi, ifAddressed_pass ha]

/-- An UPDATE with no poll in flight and an accepted address begins with its read (44_device_ops.md R196). -/
theorem exec_update_accepted {a : Half} {d : Byte} {s : State} (hi : s.init = true) (ha : addrRejected a s = false)
    (hp : s.pollCtx = none) : exec (.update a d) s = updateBegin a d s := by
  rw [exec_update_begin hp, ifInitialized_pass hi, ifAddressed_pass ha]

/-- A write whose first step ends with a fault answers that. -/
theorem writeBegin_of_raised {a : Half} {d : Byte} {s t : State} (h : writePulsed a d s = .raised t) :
    writeBegin a d s = .next t := by
  rw [writeBegin, h]

/-- Unless SC is high over a clear stage 0, a write on an Idle chip starts the write cycle and its poll. -/
theorem writeBegin_idle {a : Half} {d : Byte} {s : State} (hoff : s.lvl.sc = false ∨ s.sr[0] = true)
    (hc : s.chip = .idle) :
    writeBegin a d s = .next { s with
      lvl := { sd := a.getLsbD 0, sc := false, sl := false, we := true }
      sr := frame a false, q := frame a false, busDir := .output, dout := d
      ie := irqAfterPulse s.params.irqExit s.ie
      chip := .writing (chipAddr a) d
      pollCtx := some { addr := a, expect := d.getLsbD 7, reads := 0 }
      trace := s.trace ++ writeEvents s.params s.ie a d } := by
  rw [writeBegin, writePulsed_off hoff, if_neg (not_not_intro hc), writeStarted, writeDriven, framed_off hoff,
    frame_bit0]
  rfl

/-- On a chip still writing, the same write ends before its pulse (42_write_pulse.md R151). -/
theorem writeBegin_busy {a : Half} {d : Byte} {s : State} (hoff : s.lvl.sc = false ∨ s.sr[0] = true)
    (hc : s.chip ≠ .idle) :
    writeBegin a d s = .next { s with
      lvl := { s.lvl with sd := a.getLsbD 0, sc := false, sl := false }
      sr := frame a false, q := frame a false, busDir := .output, dout := d
      trace := s.trace ++ (setaddrEvents (frame a false) ++ .busMode .output :: driveEvents d)
      fault := some (.chipBusy s.chip) } := by
  rw [writeBegin, writePulsed_off hoff, if_pos hc, writeDriven, framed_off hoff, frame_bit0]

/-- UPDATE appends 0 where its read returns the byte (44_device_ops.md R196). -/
theorem updateBegin_equal {a : Half} {d : Byte} {s u : State} (h : readCore a s = .done d u) :
    updateBegin a d s = .next (u.answer 0#8).advance := by
  simp only [updateBegin, h, if_true]

/-- Otherwise it goes on with the write, from where the read has left the block. -/
theorem updateBegin_other {a : Half} {d v : Byte} {s u : State} (h : readCore a s = .done v u) (hv : v ≠ d) :
    updateBegin a d s = writeBegin a d u := by
  simp only [updateBegin, h, hv, if_false]

/-- The iteration that reads the awaited bit ends the poll, whatever its command does last. -/
theorem pollStep_match {c : PollCtx} {s : State} (h : (pollByte c s)[7] = c.expect) :
    ∃ n, s.draws < n ∧ ∀ last, pollStep c s last = .next (last { pollRead c s n with pollCtx := none }).advance := by
  obtain ⟨n, hlt, hn⟩ := pollIteration_eq c s
  refine ⟨n, hlt, fun last => ?_⟩
  rw [pollStep, hn, if_pos h]

/-- One that reads the other bit does not come to what its command does last. -/
theorem pollStep_other_last {c : PollCtx} {s : State} (h : (pollByte c s)[7] ≠ c.expect) (last last' : State → State) :
    pollStep c s last = pollStep c s last' := by
  obtain ⟨n, -, hn⟩ := pollIteration_eq c s
  rw [pollStep, pollStep, hn, if_neg h]
  split_ifs <;> rfl

/-- The fields that a poll's read writes. -/
theorem pollRead_eq (c : PollCtx) (s : State) (n : Nat) :
    pollRead c s n = { s with
      busDir := .input, dout := Config.freeValue 8 s.draws, draws := n
      lvl := { s.lvl with sd := c.addr.getLsbD 0, sc := false, sl := false }
      sr := framed s (frame c.addr true), q := framed s (frame c.addr true)
      trace := s.trace ++ .delayPoll :: readEvents c.addr } := by
  rw [← frame_bit0 c.addr true]
  rfl

end Sys2Proof.Machine
end

section
/-! SUPPORT. Which faults a device operation can leave (44_device_ops.md R190, R193, R194). -/

namespace Sys2Proof.Machine

/-- The faults of the two checks before a command's first event (60_exceptions.md R221, R223). -/
def Fault.ofChecks (f : Fault) : Prop := (∃ op, f = .notInitialized op) ∨ ∃ b, f = .addressOutOfRange b

/-- Those, and the faults of a write that turns the outputs off first and of its poll (44_device_ops.md R194). -/
def Fault.ofWrite (f : Fault) : Prop :=
  (∃ op, f = .notInitialized op) ∨ (∃ b, f = .addressOutOfRange b) ∨ (∃ b n, f = .writeTimeout b n) ∨
    ∃ c, f = .chipBusy c

theorem Fault.ofChecks.ofWrite {f : Fault} (h : f.ofChecks) : f.ofWrite := h.imp_right .inl

theorem exec_before_init {i : Instr} {s : State} (hne : i ≠ .init) (hi : s.init = false) :
    exec i s = .next (s.raise (.notInitialized i.opcode)) := by
  cases i with
  | init => exact absurd rfl hne
  | _ => exact ifInitialized_fault hi _ _

/-- A fault of a command behind its two checks is a check's, or its body's. -/
theorem checked_fault {i : Instr} {a : Half} {s t : State} {f : Fault} {body : Host.Outcome State Fault Refusal}
    (h : ifInitialized i s (ifAddressed a s body) = .next t) (hf : t.fault = some f) : f.ofChecks ∨ body = .next t := by
  unfold ifInitialized ifAddressed at h
  split_ifs at h
  · cases h; exact .inl (.inr ⟨a, (Option.some.inj hf).symm⟩)
  · exact .inr h
  · cases h; exact .inl (.inl ⟨_, (Option.some.inj hf).symm⟩)

/-- READ raises nothing behind its checks (44_device_ops.md R190). -/
theorem exec_read_fault {a : Half} {s t : State} {f : Fault} (hs : s.fault = none) (h : exec (.read a) s = .next t)
    (hf : t.fault = some f) : f.ofChecks := by
  refine (checked_fault h hf).resolve_right fun h => ?_
  obtain ⟨n, -, hn⟩ := readCore_readState a s
  rw [hn, finish_done] at h
  cases h
  cases hs.symm.trans hf

/-- A poll in flight raises only WriteTimeout (43_completion_poller.md R175). -/
theorem exec_inflight_fault {i : Instr} {c : PollCtx} {s t : State} {f : Fault} (hpolls : i.polls = true)
    (hp : s.pollCtx = some c) (hs : s.fault = none) (h : exec i s = .next t) (hf : t.fault = some f) : f.ofWrite := by
  by_cases hi : s.init = true
  · have hend (u : State) : (pollEnd i u).fault = u.fault := by cases i <;> rfl
    rw [exec_inflight hpolls hi hp] at h
    rcases pollEffect_cases (pollStep_effect h) with ⟨n, -, rfl⟩ | ⟨-, -, -, hkept | htimeout⟩
    · rw [advance_fault, hend] at hf
      cases hs.symm.trans hf
    · cases hs.symm.trans (hkept.symm.trans hf)
    · exact .inr (.inr (.inl ⟨_, _, Option.some.inj (hf.symm.trans htimeout)⟩))
  · rw [exec_before_init (by rintro rfl; cases hpolls) (by simpa using hi)] at h
    cases h
    exact .inl ⟨_, (Option.some.inj hf).symm⟩

/-- The first step of a write that turns the outputs off raises only ChipBusy (44_device_ops.md R193). -/
theorem writeBegin_fault {a : Half} {d : Byte} {s t : State} {f : Fault} (hoff : s.lvl.sc = false ∨ s.sr[0] = true)
    (hs : s.fault = none) (h : writeBegin a d s = .next t) (hf : t.fault = some f) : f.ofWrite := by
  by_cases hc : s.chip = .idle
  · rw [writeBegin_idle hoff hc] at h
    cases h
    cases hs.symm.trans hf
  · rw [writeBegin_busy hoff hc] at h
    cases h
    exact .inr (.inr (.inr ⟨_, (Option.some.inj hf).symm⟩))

/-- UPDATE's read leaves SC low, so its write turns the outputs off (44_device_ops.md R196). -/
theorem updateBegin_fault {a : Half} {d : Byte} {s t : State} {f : Fault} (hs : s.fault = none)
    (h : updateBegin a d s = .next t) (hf : t.fault = some f) : f.ofWrite := by
  obtain ⟨n, -, hread⟩ := readCore_readState a s
  by_cases hv : readByte a s = d
  · rw [updateBegin_equal (hv ▸ hread)] at h
    cases h
    cases hs.symm.trans hf
  · rw [updateBegin_other hread hv] at h
    exact writeBegin_fault (.inl rfl) (by exact hs) h hf

theorem exec_write_fault {a : Half} {d : Byte} {s t : State} {f : Fault} (hs : s.fault = none)
    (hoff : s.lvl.sc = false ∨ s.sr[0] = true ∨ s.pollCtx ≠ none) (h : exec (.write a d) s = .next t)
    (hf : t.fault = some f) : f.ofWrite := by
  cases hp : s.pollCtx with
  | some c => exact exec_inflight_fault rfl hp hs h hf
  | none =>
    rw [exec_write_begin hp] at h
    have hoff' : s.lvl.sc = false ∨ s.sr[0] = true := by simpa [hp] using hoff
    exact (checked_fault h hf).elim Fault.ofChecks.ofWrite fun h => writeBegin_fault hoff' hs h hf

theorem exec_update_fault {a : Half} {d : Byte} {s t : State} {f : Fault} (hs : s.fault = none)
    (h : exec (.update a d) s = .next t) (hf : t.fault = some f) : f.ofWrite := by
  cases hp : s.pollCtx with
  | some c => exact exec_inflight_fault rfl hp hs h hf
  | none =>
    rw [exec_update_begin hp] at h
    exact (checked_fault h hf).elim Fault.ofChecks.ofWrite fun h => updateBegin_fault hs h hf

end Sys2Proof.Machine
end

section
/-! SUPPORT. Runs: a write whose chip completes at some later step, and two UPDATEs of the same byte (44_device_ops.md R195,
R198). -/

namespace Sys2Proof.Machine

/-- The step in which a writing chip takes its turn, by the schedule or by the free choice (20_memory.md R57). -/
theorem step_turn_taken {s : State} {a : ChipAddr} {d : Byte} (hf : s.fault = none) (hr : s.refused = none)
    (hc : s.chip = .writing a d) (hturn : s.chipTurn.1 = true) :
    ∃ n p, step s = .next { s with draws := n, chipPlan := p, chip := .idle, mem := s.mem.write a.toNat d } := by
  obtain ⟨n, p, hu⟩ := chipTurn_state s
  exact ⟨n, p, by simp [step, hf, hr, hturn, hu, State.chipComplete, hc]⟩

/-- In BASE, where the chip does not take its turn, a read of the other bit leaves the poll in flight. -/
theorem InFlight.turn_not_taken {i : Instr} {c : PollCtx} {s : State} (h : InFlight i c s)
    (hturn : s.chipTurn.1 = false) (hecho : s.echo c.addr = some (!c.expect)) (hbase : s.params.mode = .base) :
    ∃ t, step s = .next t ∧ InFlight i { c with reads := c.reads + 1 } t ∧ Polled c.addr 1 s t := by
  obtain ⟨m, p, hu⟩ := chipTurn_state s
  have hstep : step s = pollStep c { s with draws := m, chipPlan := p } (pollEnd i) := by
    rw [step_command h.unfaulted h.unrefused h.command hturn, hu]
    exact exec_inflight h.polls h.constructed h.poll
  obtain ⟨n, hn⟩ := pollStep_missed (s := { s with draws := m, chipPlan := p }) (pollEnd i) h.clockLow h.weHigh hecho
    (by simp [hbase])
  refine ⟨_, hstep.trans hn, { h with clockLow := rfl, poll := rfl }, ?_⟩
  exact ⟨by simp [pollRead, pollEvents], rfl, rfl, rfl, rfl, rfl, rfl⟩

/-- A run that comes to an Idle chip has passed its completion, and the iteration after that ends the poll of the write
(44_device_ops.md R195). -/
theorem InFlight.returns {i : Instr} {d : Byte} {m : Nat} {c : PollCtx} {s u : State} (h : InFlight i c s)
    (he : c.expect = d[7]) (hw : s.chip = .writing (chipAddr c.addr) d) (hm : s.mem.wf = true)
    (hbase : s.params.mode = .base) (hrun : core.run m s = .next u) (hidle : u.chip = .idle) :
    ∃ k j v, core.run k s = .next (pollEnd i v).advance ∧ ReadReady v ∧
      Polled c.addr j { s with chip := .idle, mem := s.mem.write (chipAddr c.addr).toNat d } v := by
  induction m generalizing c s with
  | zero =>
    cases hrun
    cases hw.symm.trans hidle
  | succ m ih =>
    cases hturn : s.chipTurn.1 with
    | true =>
      obtain ⟨n, p, hstep⟩ := step_turn_taken h.unfaulted h.unrefused hw hturn
      have hstored : (s.mem.write (chipAddr c.addr).toNat d).read (chipAddr c.addr).toNat = d :=
        memory_read_write_same hm
      obtain ⟨v, hlast, hready, -, hpolled⟩ := InFlight.matched
        (s := { s with draws := n, chipPlan := p, chip := .idle, mem := s.mem.write (chipAddr c.addr).toNat d })
        { h with } rfl (by simp [State.echo, hstored, he])
      exact ⟨2, 1, v, (run_succ hstep).trans (run_succ hlast), hready, { hpolled with }⟩
    | false =>
      have hecho : s.echo c.addr = some (!c.expect) := by simp [State.echo, hw, he]
      obtain ⟨t, hstep, ht, hpolled⟩ := h.turn_not_taken hturn hecho hbase
      obtain ⟨k, j, v, hv, hready, hrest⟩ := ih ht he (hpolled.chip.trans hw) (hpolled.mem ▸ hm)
        (hpolled.params ▸ hbase) ((run_succ hstep).symm.trans hrun)
      refine ⟨k + 1, 1 + j, v, (run_succ hstep).trans hv, hready, .trans ?_ hrest⟩
      exact { hpolled with chip := rfl, mem := by rw [hpolled.mem] }

@[simp] theorem pulses_pollEvents (a : Half) (k : Nat) : pulses (pollEvents a k) = 0 := by
  induction k with
  | zero => rfl
  | succ k ih =>
    rw [pollEvents_add, pulses_append, ih]
    simp [pollEvents]

theorem addrRejected_congr {s t : State} (h : t.params = s.params) (a : Half) : addrRejected a t = addrRejected a s := by
  simp only [addrRejected, h]

/-- An UPDATE of an Idle chip is about to begin, and nothing keeps it from running. -/
structure UpdateReady (a : Half) (x : Byte) (s : State) : Prop extends ReadReady s where
  accepted : addrRejected a s = false
  noPoll : s.pollCtx = none
  idle : s.chip = .idle
  command : s.command = some (.update a x)

/-- The chip, Idle, takes no turn before its first step, and both checks pass. -/
theorem UpdateReady.step_eq {a : Half} {x : Byte} {s : State} (h : UpdateReady a x s) : step s = updateBegin a x s := by
  rw [step_command_idle h.unfaulted h.unrefused h.command h.idle,
    exec_update_accepted h.constructed h.accepted h.noPoll]

/-- With the byte already there, its one step reads it and appends 0 (44_device_ops.md R196). -/
theorem UpdateReady.step_equal {a : Half} {x : Byte} {s : State} (h : UpdateReady a x s)
    (hx : s.mem.read (chipAddr a).toNat = x) : step s = .next ((readDone a s).answer 0#8).advance := by
  rw [h.step_eq, updateBegin_equal (hx ▸ readCore_idle h.clockLow h.weHigh h.idle)]

/-- With another byte there, its first step starts the write cycle after the read. -/
theorem UpdateReady.step_other {a : Half} {x : Byte} {s : State} (h : UpdateReady a x s)
    (hx : s.mem.read (chipAddr a).toNat ≠ x) :
    step s = .next { writeStarted a x (readDone a s) with pollCtx := some { addr := a, expect := x[7], reads := 0 } } := by
  rw [h.step_eq, updateBegin_other (readCore_idle h.clockLow h.weHigh h.idle) hx, writeBegin, writePulsed_low (by rfl),
    if_neg (not_not_intro (by exact h.idle))]

/-- The chip completing after `k` of its turns, the UPDATE that writes is over after its first step, `k` misses, the
completion and the match. -/
theorem UpdateReady.run_writes {a : Half} {x : Byte} {k : Nat} {rest : List Bool} {s : State} (h : UpdateReady a x s)
    (hx : s.mem.read (chipAddr a).toNat ≠ x) (hm : s.mem.wf = true)
    (hplan : s.chipPlan = List.replicate k false ++ true :: rest)
    (hlim : s.params.mode = .base ∨ k < s.params.pollLimit) :
    ∃ u, core.run (k + 3) s = .next (u.answer 1#8).advance ∧ ReadReady u ∧ u.pollCtx = none ∧
      Polled a (k + 1)
        { writeStarted a x (readDone a s) with chip := .idle, mem := s.mem.write (chipAddr a).toNat x } u := by
  have hflight : InFlight (.update a x) ⟨a, x[7], 0⟩
      { writeStarted a x (readDone a s) with pollCtx := some ⟨a, x[7], 0⟩ } :=
    ⟨⟨h.unfaulted, h.unrefused, h.constructed, rfl, rfl⟩, h.command, rfl, rfl⟩
  obtain ⟨u, hrun, hready, hnone, hpolled⟩ := hflight.run_completes (d := x) rfl rfl hplan hm
    (hlim.imp_right fun hlt => (Nat.zero_add k).trans_lt hlt)
  exact ⟨u, (run_succ (h.step_other hx)).trans hrun, hready, hnone, { hpolled with }⟩

end Sys2Proof.Machine
end

section
/-! PROOFS. The statements of the device operations (44_device_ops.md). -/

namespace Sys2Proof.Machine

/-- Settles O28: `readCore_stored` and `readCore_readState`, and the byte by what drives the lines. -/
theorem readAppendsStoredByte : Obligations.ReadAppendsStoredByte := by
  intro s a hi ha
  obtain ⟨n, hlt, hread⟩ := readCore_readState a s
  refine ⟨fun hon hwe hidle => ?_, ⟨n, hlt, ?_⟩,
    fun hon hwe => ⟨readByte_stored hon hwe, fun a' d => readByte_while_writing hon hwe⟩, readByte_undriven⟩
  · rw [exec_read_of_readCore hi ha (readCore_stored hon hwe hidle), readState_eq, framed_on hon]
    rfl
  · rw [exec_read_of_readCore hi ha hread, readState_eq]
    rfl

/-- Settles O29: the two next states of READ, and the induction of `execAll_reads_idle`. -/
theorem readsNeverMutateTheChip : Obligations.ReadsNeverMutateTheChip := by
  refine ⟨fun s t a h => ?_, fun s a n hi hf ha hsc hwe hc => execAll_reads_idle n hi hf ha hsc hwe hc⟩
  cases exec_effect h with
  | early => exact ⟨rfl, rfl⟩
  | read => exact ⟨rfl, rfl⟩

/-- Settles O30: `writeBegin_idle`. -/
theorem writeStartsTheWriteCycle : Obligations.WriteStartsTheWriteCycle := by
  intro s a d hi ha hoff hc hp
  exact ⟨(exec_write_accepted hi ha hp).trans (writeBegin_idle hoff hc), writeEvents_length _ _ a d⟩

/-- Settles O31: `writeBegin_busy`. -/
theorem writeOnBusyChipFaults : Obligations.WriteOnBusyChipFaults := by
  intro s a d hi ha hoff hc hp
  refine ⟨(exec_write_accepted hi ha hp).trans (writeBegin_busy hoff hc), ?_⟩
  simp [driveEvents, linesUp]

/-- Settles O32: the three commands go on with the same poll step, and differ only in what they do when it is over. -/
theorem writeAndUpdateReturnOnEcho : Obligations.WriteAndUpdateReturnOnEcho := by
  intro s c a b hi hp
  have hwrite : exec (.write a b) s = pollStep c s fun x => x := exec_write_inflight hi hp
  have hupdate : exec (.update a b) s = pollStep c s fun x => x.answer 1#8 := exec_update_inflight hi hp
  refine ⟨fun hread => ?_, fun a' e => ?_⟩
  · obtain ⟨n, hlt, hmatch⟩ := pollStep_match (pollReads_bit hread)
    refine ⟨n, hlt, ?_⟩
    rw [hwrite, hupdate, hmatch, hmatch, pollRead_eq]
    exact ⟨rfl, rfl⟩
  · have hpoll : exec (.poll a' e) s = pollStep c s fun x => x := exec_poll_inflight hi hp
    refine ⟨hwrite.trans hpoll.symm, fun hread => ?_⟩
    rw [hupdate, hpoll]
    exact pollStep_other_last (pollReads_other hread) _ _

/-- Settles O33: `updateBegin_equal`, the byte read being the stored one in the second case. -/
theorem updateOfEqualByteWritesNothing : Obligations.UpdateOfEqualByteWritesNothing := by
  intro s a b hi ha hp hequal
  obtain ⟨n, hlt, hread⟩ := readCore_readState a s
  have hb : readByte a s = b := by
    rcases hequal with hb | ⟨hsc, hwe, hc, hb⟩
    · exact hb
    · exact (readByte_stored (.inl hsc) hwe hc).trans hb
  rw [hb] at hread
  refine ⟨⟨n, hlt, ?_⟩, by simp⟩
  rw [exec_update_accepted hi ha hp, updateBegin_equal hread, readState_eq]
  rfl

/-- Settles O34: the write begins where the read has left SC low, on the chip as it was. -/
theorem updateOfOtherByteStartsWrite : Obligations.UpdateOfOtherByteStartsWrite := by
  intro s a b hi ha hp
  refine ⟨fun hother => ?_, fun a' d hon hwe hc => ?_⟩
  · obtain ⟨n, hlt, hread⟩ := readCore_readState a s
    have hb : readByte a s ≠ b := by
      rcases hother with hb | ⟨hsc, hwe, hc, hb⟩
      · exact hb
      · rwa [readByte_stored (.inl hsc) hwe hc]
    have hbegin : exec (.update a b) s = writeBegin a b (readState a n s) := by
      rw [exec_update_accepted hi ha hp, updateBegin_other hread hb]
    refine ⟨n, hlt, fun hc => ?_, fun hc => ?_⟩
    · rw [hbegin, writeBegin_idle (.inl rfl) (by exact hc), readState_trace, List.append_assoc]
      rfl
    · rw [hbegin, writeBegin_busy (.inl rfl) (by exact hc), readState_trace, List.append_assoc]
      rfl
  · have hbyte := readByte_while_writing (a := a) hon hwe hc
    refine ⟨hbyte, fun haddr hbit heq => ?_⟩
    have htop : (readByte a s).getLsbD 7 = !d.getLsbD 7 := by
      rw [hbyte, if_pos haddr, BitVec.getLsbD_append]
      simp
    rw [heq, hbit] at htop
    exact Bool.not_ne_self _ htop.symm

/-- Settles O35: the faults of each command, and the first failing check of the write whose outputs stay on. -/
theorem deviceOpsNeverContend : Obligations.DeviceOpsNeverContend := by
  refine ⟨fun s t a d hs f hf => ⟨fun h => exec_read_fault hs h hf, ?_⟩, fun s a d hi ha hp hsc h0 => ?_⟩
  · rintro (h | ⟨h, hoff⟩)
    · exact exec_update_fault hs h hf
    · exact exec_write_fault hs hoff h hf
  · have hframed : framed s (frame a false) = frame a true := framed_lost hsc h0
    have htop : (frame a true)[15] = false := frame_top a true
    have hpulsed := writePulsed_eq a d s
    simp only [hframed, htop, if_true, writeDriven, frame_bit0] at hpulsed
    rw [exec_write_accepted hi ha hp]
    refine ⟨fun hwe hdir => writeBegin_of_raised ?_, fun hwe hdir => writeBegin_of_raised ?_,
      fun hwe => writeBegin_of_raised ?_⟩
    · rw [hpulsed, if_pos hwe, if_pos hdir]
    · rw [hpulsed, if_pos hwe, if_neg (not_not_intro hdir)]
    · rw [hpulsed, if_neg (by simp [hwe])]

/-- Settles O40: `InFlight.returns` with the step at which the chip is Idle. -/
theorem writeReturnsUnderChipCompletes : Obligations.WriteReturnsUnderChipCompletes := by
  intro s a d c hbase hf hr hi hsc hwe hm hc hp ha he hw hcompletes
  subst ha
  have hflight : InFlight (.write c.addr d) c s := ⟨⟨hf, hr, hi, hsc, hwe⟩, hc, rfl, hp⟩
  obtain ⟨m, u, hrun, hidle⟩ := hcompletes 0 s rfl (by simp [hw])
  obtain ⟨k, j, v, hv, hready, hpolled⟩ := hflight.returns he hw hm hbase hrun hidle
  refine ⟨k, _, hv, congrArg (· + 1) hpolled.pc, hready.unfaulted, hpolled.chip, ?_⟩
  show v.mem.read _ = d
  rw [hpolled.mem]
  exact memory_read_write_same hm

/-- Settles O41: the UPDATE that finds the byte takes one step; the one that does not writes it, and the next finds it. -/
theorem updateIsIdempotent : Obligations.UpdateIsIdempotent := by
  intro s a x k rest hlim ha hf hr hi hsc hwe hm hp hc hcmd hcmd' hplan
  have hfirst : UpdateReady a x s := ⟨⟨hf, hr, hi, hsc, hwe⟩, ha, hp, hc, hcmd⟩
  refine ⟨fun hx => ?_, fun hx => ?_⟩
  · have hsecond : UpdateReady a x ((readDone a s).answer 0#8).advance :=
      ⟨⟨hf, hr, hi, rfl, hwe⟩, ha, hp, hc, hcmd'⟩
    refine ⟨_, (run_succ (hfirst.step_equal hx)).trans (run_succ (hsecond.step_equal hx)), rfl, hf, hc, rfl, ?_, ?_⟩
    · simp [readDone]
    · simp [readDone]
  · obtain ⟨u, hrun, hready, hnone, hpolled⟩ := hfirst.run_writes hx hm hplan hlim
    have hnext : (u.answer 1#8).advance.command = some (.update a x) :=
      (command_congr (s := { s with pc := s.pc + 1 }) (t := (u.answer 1#8).advance) hpolled.cmds
        (congrArg (· + 1) hpolled.pc)).trans hcmd'
    have hsecond : UpdateReady a x (u.answer 1#8).advance :=
      { hready with
        accepted := (addrRejected_congr hpolled.params a).trans ha
        noPoll := hnone, idle := hpolled.chip, command := hnext }
    have hstored : u.mem.read (chipAddr a).toNat = x := by rw [hpolled.mem]; exact memory_read_write_same hm
    have hkept (y : Nat) (hy : y ≠ (chipAddr a).toNat) : u.mem.read y = s.mem.read y := by
      rw [hpolled.mem]
      exact memory_read_write_other hy
    refine ⟨_, (run_next hrun).trans (hsecond.step_equal hstored), congrArg (· + 2) hpolled.pc, hready.unfaulted,
      hpolled.chip, hstored, hkept, ?_, ?_⟩
    · simp [readDone, hpolled.out, writeStarted, writeDriven]
    · simp [readDone, hpolled.trace, writeStarted]

end Sys2Proof.Machine
end

section
/-! SUPPORT. Every command answers a next state, and what it keeps of the state where that records a fault
(60_exceptions.md R222, R225). -/

namespace Sys2Proof.Machine

/-- The outcome is a next state: no stop with a fault or a refusal. -/
def Answers (o : Host.Outcome State Fault Refusal) : Prop := ∃ t : State, o = .next t

theorem ifInitialized_answers {i : Instr} {s : State} {b : Host.Outcome State Fault Refusal} (h : Answers b) :
    Answers (ifInitialized i s b) := by
  unfold ifInitialized
  split
  · exact h
  · exact ⟨_, rfl⟩

theorem ifAddressed_answers {a : Half} {s : State} {b : Host.Outcome State Fault Refusal} (h : Answers b) :
    Answers (ifAddressed a s b) := by
  unfold ifAddressed
  split
  · exact ⟨_, rfl⟩
  · exact h

/-- The end of a command answers, with the fault that a part of it raised or with none. -/
theorem finish_answers {α : Type} (r : SubStep α) (last : α → State → State) : Answers (r.finish last) := by
  cases r with
  | done v s => exact ⟨_, finish_done s v last⟩
  | raised s => exact ⟨_, finish_raised s last⟩

theorem pollStep_answers (c : PollCtx) (s : State) (last : State → State) : Answers (pollStep c s last) := by
  unfold pollStep
  split <;> exact ⟨_, rfl⟩

theorem writeBegin_answers (a : Half) (d : Byte) (s : State) : Answers (writeBegin a d s) := by
  unfold writeBegin
  split <;> exact ⟨_, rfl⟩

/-- UPDATE's read ends with a byte: equal, it is over; otherwise its write answers. -/
theorem updateBegin_answers (a : Half) (d : Byte) (s : State) : Answers (updateBegin a d s) := by
  have hread := readCore_eq a s
  by_cases hv : readByte a s = d
  · exact ⟨_, updateBegin_equal (hv ▸ hread)⟩
  · rw [updateBegin_other hread hv]
    exact writeBegin_answers a d _

theorem execInit_answers (s : State) : Answers (execInit s) := by
  unfold execInit
  split_ifs <;> exact ⟨_, rfl⟩

/-- From `s` to `t` a fault was recorded, and what fault entry and the steps before it keep is as it was
(60_exceptions.md R222; a write pulse has no fault inside it, 42_write_pulse.md R155). -/
structure FaultEntry (s t : State) : Prop where
  recorded : t.fault ≠ none
  pc : t.pc = s.pc
  ie : t.ie = s.ie
  we : t.lvl.we = s.lvl.we
  out : t.out = s.out
  chip : t.chip = s.chip

/-- Recording a fault is a fault entry, after steps that keep what it keeps. -/
theorem faultEntry_raise {s u : State} (f : Fault) (hpc : u.pc = s.pc) (hie : u.ie = s.ie) (hwe : u.lvl.we = s.lvl.we)
    (hout : u.out = s.out) (hchip : u.chip = s.chip) : FaultEntry s (u.raise f) :=
  ⟨Option.some_ne_none f, hpc, hie, hwe, hout, hchip⟩

/-- A poll iteration records a fault only at its limit (43_completion_poller.md R175). -/
theorem pollEffect_fault {c : PollCtx} {last : State → State} {s t : State}
    (hl : ∀ x : State, last x = { x with out := (last x).out }) (h : PollEffect c last s t) :
    t.fault = s.fault ∨ FaultEntry s t := by
  cases h with
  | matched n h => rw [hl]; exact .inl rfl
  | timeout n h hm hlimit => exact .inr (faultEntry_raise _ rfl rfl rfl rfl rfl)
  | missed n h hlimit => exact .inl rfl

/-- The first step of a write records a fault before its pulse, or none (44_device_ops.md R193). -/
theorem writeEffect_fault {a : Half} {d : Byte} {s t : State} (h : WriteEffect a d s t) :
    t.fault = s.fault ∨ FaultEntry s t := by
  rcases writeEffect_cases h with ⟨f, hf, hwe, hie, hchip, -⟩ | ⟨-, -, rfl⟩
  · obtain ⟨hframe, -⟩ := writeEffect_frame h
    have hpc : t.pc = s.pc := by rw [hframe]
    exact .inr ⟨by simp [hf], hpc, hie, hwe, writeEffect_keeps_out h, hchip⟩
  · exact .inl rfl

/-- Every command keeps the fault recorded before it, or enters one of its own. -/
theorem effect_fault {i : Instr} {s t : State} (h : Effect i s t) : t.fault = s.fault ∨ FaultEntry s t := by
  cases h with
  | early f => exact .inr (faultEntry_raise f rfl rfl rfl rfl rfl)
  | addressContended => exact .inr (faultEntry_raise _ rfl rfl rfl rfl rfl)
  | busOutContended => exact .inr (faultEntry_raise _ rfl rfl rfl rfl rfl)
  | pulsed => rw [pulse_eq]; exact .inl rfl
  | pollBegun hi hp hs =>
    exact (pollEffect_fault (fun _ => rfl) hs).imp_right fun h => { h with }
  | polled hi hp hs => exact pollEffect_fault (fun _ => rfl) hs
  | writeBegun hi hp hs => exact writeEffect_fault hs
  | writePolled hi hp hs => exact pollEffect_fault (fun _ => rfl) hs
  | updateBegun hi hp n hs => exact (writeEffect_fault hs).imp_right fun h => { h with }
  | updatePolled hi hp hs => exact pollEffect_fault (fun _ => rfl) hs
  | _ => exact .inl rfl

/-- No command writes a recorded refusal: INIT's construction leaves it as the other commands do. -/
theorem effect_refused {i : Instr} {s t : State} (h : Effect i s t) : t.refused = s.refused := by
  by_cases hc : i ≠ .init ∨ s.init = true
  · rw [effect_frame h hc]
  · obtain rfl : i = .init := by simpa using mt Or.inl hc
    cases h with
    | early f => rfl
    | constructed => rfl

end Sys2Proof.Machine
end

section
/-! SUPPORT. The checks before a command's first event, the stops of a step, the refused word, and the final states
(60_exceptions.md R221, R223 to R225, 00_scope.md R15). -/

namespace Sys2Proof.Machine

/-- In HARDENED an operand above 0x7FFF is rejected (30_encoding.md R82). -/
theorem addrRejected_hardened {s : State} {a : Half} (hm : s.params.mode = .hardened) (ha : 0x7FFF < a.toNat) :
    addrRejected a s = true := by
  simpa [addrRejected, addrInRange, hm] using ha

/-- After construction a rejected operand is all that a command with an address records. -/
theorem checked_rejected {i : Instr} {a : Half} {s : State} (hi : s.init = true) (ha : addrRejected a s = true)
    (body : Host.Outcome State Fault Refusal) :
    ifInitialized i s (ifAddressed a s body) = .next (s.raise (.addressOutOfRange a)) := by
  rw [ifInitialized_pass hi, ifAddressed_fault ha]

theorem exec_rdbyte_against {s : State} (hi : s.init = true) (hb : s.busDir ≠ .input) :
    exec .rdbyte s = .next (s.raise (.busDirection 0x4#4 s.busDir)) := by
  simp only [exec, execRdbyte, ifInitialized_pass hi, rdByteCore_eq, if_pos hb, finish_raised, State.raise]

theorem exec_wrbyte_against {d : Byte} {s : State} (hi : s.init = true) (hb : s.busDir ≠ .output) :
    exec (.wrbyte d) s = .next (s.raise (.busDirection 0x5#4 s.busDir)) := by
  simp only [exec, execWrbyte, ifInitialized_pass hi, wrByteCore_eq, if_pos hb, finish_raised, State.raise]

theorem step_of_fault {s : State} {f : Fault} (hf : s.fault = some f) : step s = .fault f := by
  simp only [step, hf]

theorem step_of_refused {s : State} {r : Refusal} (hf : s.fault = none) (hr : s.refused = some r) :
    step s = .refused r := by
  simp only [step, hf, hr]

/-- Where the chip takes no turn, a word that spells no command is recorded. -/
theorem step_illegal {s : State} {w : Word} {e : IllegalWord} (hf : s.fault = none) (hr : s.refused = none)
    (hturn : s.chipTurn.1 = false) (hw : s.cmds[s.pc]? = some w) (hd : decode w = .error e) :
    step s = .next (s.chipTurn.2.refuse (.illegalCommand w)) := by
  obtain ⟨n, p, hu⟩ := chipTurn_state s
  have hfetch : s.chipTurn.2.fetch = some w := by rw [hu]; exact hw
  simp [step, hf, hr, hturn, blockStep, hfetch, hd]

theorem isFinal_iff {s : State} :
    s.isFinal = true ↔ s.pc = s.cmds.length ∧ s.fault = none ∧ s.refused = none ∧ s.chip = .idle := by
  simp only [State.isFinal, Bool.and_eq_true, decide_eq_true_eq, Option.isNone_iff_eq_none, and_assoc]

theorem isFinal_eq_false {s : State}
    (h : ¬ (s.pc = s.cmds.length ∧ s.fault = none ∧ s.refused = none ∧ s.chip = .idle)) : s.isFinal = false :=
  Bool.eq_false_iff.mpr fun hfinal => h (isFinal_iff.mp hfinal)

end Sys2Proof.Machine
end

section
/-! PROOFS. The statements of faults and refusals (60_exceptions.md). -/

namespace Sys2Proof.Machine

/-- Settles O42: a case for each command, by how it ends behind its checks. -/
theorem everyCommandAnswersNextState : Obligations.EveryCommandAnswersNextState := by
  intro i s
  cases i with
  | init => exact execInit_answers s
  | setaddr a oe => exact ifInitialized_answers (ifAddressed_answers (finish_answers _ _))
  | busin => exact ifInitialized_answers ⟨_, rfl⟩
  | busout => exact ifInitialized_answers (finish_answers _ _)
  | rdbyte => exact ifInitialized_answers (finish_answers _ _)
  | wrbyte d => exact ifInitialized_answers (finish_answers _ _)
  | pulsewe => exact ifInitialized_answers (finish_answers _ _)
  | read a => exact ifInitialized_answers (ifAddressed_answers (finish_answers _ _))
  | poll a e =>
    refine ifInitialized_answers ?_
    split
    · exact pollStep_answers _ _ _
    · exact ifAddressed_answers (pollStep_answers _ _ _)
  | write a d =>
    refine ifInitialized_answers ?_
    split
    · exact pollStep_answers _ _ _
    · exact ifAddressed_answers (writeBegin_answers a d s)
  | update a d =>
    refine ifInitialized_answers ?_
    split
    · exact pollStep_answers _ _ _
    · exact ifAddressed_answers (updateBegin_answers a d s)

/-- Settles O43: `effect_fault`; only a construction changes the rest, and it records none. -/
theorem faultEntryIsPrecise : Obligations.FaultEntryIsPrecise := by
  intro i s t hs h hf
  have heffect : Effect i s t := exec_effect h
  have hentry : FaultEntry s t := (effect_fault heffect).resolve_left fun hkept => hf (hkept.trans hs)
  rcases effect_construction heffect with ⟨hmem, hcfg, hinit⟩ | ⟨-, rfl⟩
  · exact ⟨hentry.pc, hentry.ie, hentry.we, hentry.out, hentry.chip, hmem, hinit, hcfg⟩
  · exact absurd hs hf

/-- Settles O50: the two stops of a step, `effect_fault` and `effect_refused`, and `isFinal_iff`. -/
theorem nothingRunsAfterFaultOrRefusal : Obligations.NothingRunsAfterFaultOrRefusal := by
  refine ⟨fun s f hf => ⟨step_of_fault hf, isFinal_eq_false (by simp [hf])⟩,
    fun s r hf hr => ⟨step_of_refused hf hr, isFinal_eq_false (by simp [hr])⟩,
    fun i s t h => ⟨fun hf => ?_, fun hr => ?_⟩, fun _ => isFinal_iff, fun s a d hc => isFinal_eq_false (by simp [hc])⟩
  · rcases effect_fault (exec_effect h) with hkept | hentry
    · rwa [hkept]
    · exact hentry.recorded
  · rwa [effect_refused (exec_effect h)]

/-- Settles O6: `exec_before_init`. -/
theorem commandsBeforeInitFault : Obligations.CommandsBeforeInitFault :=
  fun _ _ hne hi => exec_before_init hne hi

/-- Settles O12: the five commands begin with the same two checks, and the second rejects. -/
theorem hardenedRejectsAddressAbove7FFF : Obligations.HardenedRejectsAddressAbove7FFF := by
  intro s a oe e d hi hm ha
  have hrejected : addrRejected a s = true := addrRejected_hardened hm ha
  refine ⟨checked_rejected hi hrejected _, checked_rejected hi hrejected _, fun hp => ⟨?_, ?_, ?_⟩⟩
  · rw [exec_poll_begin hp]
    exact checked_rejected hi hrejected _
  · rw [exec_write_begin hp]
    exact checked_rejected hi hrejected _
  · rw [exec_update_begin hp]
    exact checked_rejected hi hrejected _

/-- Settles O19: the direction check comes before the first event. -/
theorem transferAgainstDirectionFaults : Obligations.TransferAgainstDirectionFaults :=
  fun _ _ hi => ⟨exec_rdbyte_against hi, exec_wrbyte_against hi⟩

/-- Settles O51: `step_illegal`, and an Idle chip takes no turn and leaves the state as it is. -/
theorem illegalWordIsRefused : Obligations.IllegalWordIsRefused := by
  intro s w e hf hr hturn hw hd
  have hstep := step_illegal hf hr hturn hw hd
  refine ⟨hstep, fun hidle => ?_⟩
  rw [chipTurn_idle hidle] at hstep
  exact hstep

end Sys2Proof.Machine
end

section
/-! SUPPORT. The invariants before construction and with no poll in flight, and INIT's construction. -/

namespace Sys2Proof.Machine

/-- Before construction the pins have nothing to keep. -/
theorem pinInv_of_not_constructed {s : State} (hi : s.init = false) : PinInv s where
  weHigh h := absurd h (by simp [hi])
  busFree h := absurd h (by simp [hi])
  serialLow h := absurd h (by simp [hi])

theorem cfgInv_of_not_constructed {s : State} (hi : s.init = false) : CfgInv s :=
  fun h => absurd h (by simp [hi])

/-- With no poll in flight there is no count to bound. -/
theorem pollBound_of_none {s : State} (hp : s.pollCtx = none) : PollBound s :=
  fun c _ _ hc => absurd hc (by simp [hp])

/-- INIT before construction with a valid configuration constructs the block (70_reset_and_hazards.md R250). -/
theorem exec_init_constructs {s : State} (hi : s.init = false) (hv : s.params.pins.valid = true) :
    exec .init s = .next s.construct.advance := by
  simp [exec, execInit, hi, hv]

end Sys2Proof.Machine
end

section
/-! PROOFS. The statements of launch and construction (70_reset_and_hazards.md). -/

namespace Sys2Proof.Machine

/-- Settles O1: the launch state writes each of these elements out, whatever the parameters. -/
theorem launchStateFixedElements : Obligations.LaunchStateFixedElements :=
  fun _ => ⟨rfl, rfl, rfl, rfl, rfl, rfl, rfl, rfl, rfl⟩

/-- Settles O2: `exec_init_constructs`, whose state is the one written out. -/
theorem initConstructsInOneEvent : Obligations.InitConstructsInOneEvent :=
  fun _ hi hv => exec_init_constructs hi hv

/-- Settles O3: `exec_init_again`. -/
theorem secondInitFaultsAndChangesNothing : Obligations.SecondInitFaultsAndChangesNothing :=
  fun _ hi => exec_init_again hi

/-- Settles O60: at launch the block is not constructed, no poll is in flight and the array is empty. -/
theorem launchMeetsTheInvariants : Obligations.LaunchMeetsTheInvariants := by
  obtain ⟨-, hinit, -, -, hpoll, -⟩ := launchStateFixedElements Config.defaultParams
  exact ⟨pinInv_of_not_constructed hinit, pollInv_of_none hpoll, pollBound_of_none hpoll, rfl,
    cfgInv_of_not_constructed hinit, rfl⟩

end Sys2Proof.Machine
end
